-- ==== Sys2Proof/Word.lean ====
section
/-! DEFINITION. The word types of the CHIP-8 core (spec/00_scope.md R6, R9, R10). -/

namespace Sys2Proof

/-- A general register, a timer, a memory cell or the field `nn`: 8 bits (R6, R71). -/
abbrev Byte := BitVec 8

/-- An instruction word, `pc`, `I` or a stack entry: 16 bits (R6, R25, R29, R32, R70). -/
abbrev Word := BitVec 16

/-- A 4-bit field of an instruction word (glossary R16): `class`, a register index `x` or `y`, the row
count `n`; also a key index, since keys are 0 to 15 (R150). -/
abbrev Nibble := BitVec 4

/-- The 12-bit address immediate `nnn` (R71). -/
abbrev Addr12 := BitVec 12

end Sys2Proof
end

