-- ==== Sys2Proof/Config.lean ====
section
/-! DEFINITION. The fixed parameters of the core (spec/00_scope.md R6) and the free random byte (R14,
spec/50_interfaces.md R173). The three parameters the source leaves open (R7) are held in
`Sys2Proof.Machine.Params`, so that every statement quantifies over them (log entry 3). -/

namespace Sys2Proof.Config

/-- `MEM_SIZE`: bytes of memory (R6). -/
abbrev memSize : Nat := 4096

/-- `PROGRAM_BASE`: where programs load and where `pc` starts (R6, R38, R58). -/
abbrev programBase : Nat := 0x200

/-- `MAX_IMAGE` = `MEM_SIZE` − `PROGRAM_BASE` (R6). -/
abbrev maxImage : Nat := memSize - programBase

/-- `NUM_V`: general registers (R6). -/
abbrev numV : Nat := 16

/-- `NUM_KEYS`: keys of the keyboard latch (R6). -/
abbrev numKeys : Nat := 16

/-- `DISP_W`: pixel columns of the display (R6). -/
abbrev dispW : Nat := 64

/-- `DISP_H`: pixel rows of the display (R6). -/
abbrev dispH : Nat := 32

/-- `INSTR_BYTES`: bytes of one instruction (R6, R70). -/
abbrev instrBytes : Nat := 2

/-- `FONT_STRIDE`: the multiplier of `Fx29` (R6, R132). -/
abbrev fontStride : Nat := 5

/-- DESIGN CHOICE (log entry 2). The random byte of the `k`-th draw when the host has not written the byte
down in the state: a free value under no law (R121, R173). It has no body, so no proof can see what it is. -/
opaque freeRandomByte : Nat → Byte

end Sys2Proof.Config
end

