-- ==== Sys2Proof/Syntax.lean ====
section
/-! DEFINITION. The 34 instructions of the opcode map, spec/30_encoding.md R74, one constructor per row and
in the row order. Operand bounds are in the types: register indices are 4-bit fields ("guaranteed
structurally", spec/10_state.md R20), immediates have the widths of R71. -/

namespace Sys2Proof

/-- An instruction of the core. `x` and `y` are register indices, `nn` the 8-bit and `nnn` the 12-bit
immediate, `n` the sprite row count (R71, R73). -/
inductive Instr where
  /-- `00E0`, `CLS` (R144). -/
  | cls
  /-- `00EE`, `RET` (R100). -/
  | ret
  /-- `1nnn`, `JP nnn` (R101). -/
  | jp (nnn : Addr12)
  /-- `2nnn`, `CALL nnn` (R102). -/
  | call (nnn : Addr12)
  /-- `3xnn`, `SE Vx, nn` (R103). -/
  | seImm (x : Nibble) (nn : Byte)
  /-- `4xnn`, `SNE Vx, nn` (R104). -/
  | sneImm (x : Nibble) (nn : Byte)
  /-- `5xy0`, `SE Vx, Vy` (R105). -/
  | seReg (x y : Nibble)
  /-- `6xnn`, `LD Vx, nn` (R110). -/
  | ldImm (x : Nibble) (nn : Byte)
  /-- `7xnn`, `ADD Vx, nn` (R111). -/
  | addImm (x : Nibble) (nn : Byte)
  /-- `8xy0`, `LD Vx, Vy` (R112). -/
  | ldReg (x y : Nibble)
  /-- `8xy1`, `OR Vx, Vy` (R113). -/
  | orReg (x y : Nibble)
  /-- `8xy2`, `AND Vx, Vy` (R114). -/
  | andReg (x y : Nibble)
  /-- `8xy3`, `XOR Vx, Vy` (R115). -/
  | xorReg (x y : Nibble)
  /-- `8xy4`, `ADD Vx, Vy` (R116). -/
  | addReg (x y : Nibble)
  /-- `8xy5`, `SUB Vx, Vy` (R117). -/
  | sub (x y : Nibble)
  /-- `8xy6`, `SHR Vx`; `y` is encoded and selects nothing (R118, R76). -/
  | shr (x y : Nibble)
  /-- `8xy7`, `SUBN Vx, Vy` (R119). -/
  | subn (x y : Nibble)
  /-- `8xyE`, `SHL Vx`; `y` is encoded and selects nothing (R120, R76). -/
  | shl (x y : Nibble)
  /-- `9xy0`, `SNE Vx, Vy` (R106). -/
  | sneReg (x y : Nibble)
  /-- `Annn`, `LD I, nnn` (R130). -/
  | ldI (nnn : Addr12)
  /-- `Bnnn`, `JP V0, nnn` (R107). -/
  | jpV0 (nnn : Addr12)
  /-- `Cxnn`, `RND Vx, nn` (R121). -/
  | rnd (x : Nibble) (nn : Byte)
  /-- `Dxyn`, `DRW Vx, Vy, n` (R145, R146). -/
  | drw (x y n : Nibble)
  /-- `Ex9E`, `SKP Vx` (R154). -/
  | skp (x : Nibble)
  /-- `ExA1`, `SKNP Vx` (R155). -/
  | sknp (x : Nibble)
  /-- `Fx07`, `LD Vx, DT` (R160). -/
  | ldVxDT (x : Nibble)
  /-- `Fx0A`, `LD Vx, K` (R157). -/
  | ldVxK (x : Nibble)
  /-- `Fx15`, `LD DT, Vx` (R161). -/
  | ldDTVx (x : Nibble)
  /-- `Fx18`, `LD ST, Vx` (R162). -/
  | ldSTVx (x : Nibble)
  /-- `Fx1E`, `ADD I, Vx` (R131). -/
  | addI (x : Nibble)
  /-- `Fx29`, `LD F, Vx` (R132). -/
  | ldF (x : Nibble)
  /-- `Fx33`, `LD B, Vx` (R133). -/
  | ldB (x : Nibble)
  /-- `Fx55`, `LD [I], Vx`: store `V0` to `Vx` (R134). -/
  | storeRegs (x : Nibble)
  /-- `Fx65`, `LD Vx, [I]`: load `V0` to `Vx` (R135). -/
  | loadRegs (x : Nibble)
  deriving DecidableEq, Repr

end Sys2Proof
end

