-- ==== Sys2Proof/WellFormed.lean ====
section
/-! DEFINITION. Well-formedness: which words are instructions, as the mask and match rows of the opcode map
(spec/30_encoding.md R74), and which images may be loaded (spec/50_interfaces.md R167). The operands of an
`Instr` need no check of their own: their bounds are in the types (Syntax.lean). -/

namespace Sys2Proof

/-- One row of the opcode map: its number in R74, the pattern that names it, its mask and its match. -/
structure OpRow where
  num     : Nat
  pattern : String
  mask    : Word
  mtch    : Word
  deriving DecidableEq, Repr

/-- "A word `w` selects the row whose `(w AND mask) = match`" (R74). -/
def OpRow.selects (r : OpRow) (w : Word) : Bool := (w &&& r.mask) == r.mtch

/-- The opcode map, rows 1 to 9 of R74. -/
def opcodesControl : List OpRow := [
  ⟨1, "00E0", 0xFFFF#16, 0x00E0#16⟩,
  ⟨2, "00EE", 0xFFFF#16, 0x00EE#16⟩,
  ⟨3, "1nnn", 0xF000#16, 0x1000#16⟩,
  ⟨4, "2nnn", 0xF000#16, 0x2000#16⟩,
  ⟨5, "3xnn", 0xF000#16, 0x3000#16⟩,
  ⟨6, "4xnn", 0xF000#16, 0x4000#16⟩,
  ⟨7, "5xy0", 0xF00F#16, 0x5000#16⟩,
  ⟨8, "6xnn", 0xF000#16, 0x6000#16⟩,
  ⟨9, "7xnn", 0xF000#16, 0x7000#16⟩]

/-- The opcode map, rows 10 to 19 of R74. -/
def opcodesArith : List OpRow := [
  ⟨10, "8xy0", 0xF00F#16, 0x8000#16⟩,
  ⟨11, "8xy1", 0xF00F#16, 0x8001#16⟩,
  ⟨12, "8xy2", 0xF00F#16, 0x8002#16⟩,
  ⟨13, "8xy3", 0xF00F#16, 0x8003#16⟩,
  ⟨14, "8xy4", 0xF00F#16, 0x8004#16⟩,
  ⟨15, "8xy5", 0xF00F#16, 0x8005#16⟩,
  ⟨16, "8xy6", 0xF00F#16, 0x8006#16⟩,
  ⟨17, "8xy7", 0xF00F#16, 0x8007#16⟩,
  ⟨18, "8xyE", 0xF00F#16, 0x800E#16⟩,
  ⟨19, "9xy0", 0xF00F#16, 0x9000#16⟩]

/-- The opcode map, rows 20 to 25 of R74. -/
def opcodesIndex : List OpRow := [
  ⟨20, "Annn", 0xF000#16, 0xA000#16⟩,
  ⟨21, "Bnnn", 0xF000#16, 0xB000#16⟩,
  ⟨22, "Cxnn", 0xF000#16, 0xC000#16⟩,
  ⟨23, "Dxyn", 0xF000#16, 0xD000#16⟩,
  ⟨24, "Ex9E", 0xF0FF#16, 0xE09E#16⟩,
  ⟨25, "ExA1", 0xF0FF#16, 0xE0A1#16⟩]

/-- The opcode map, rows 26 to 34 of R74. -/
def opcodesF : List OpRow := [
  ⟨26, "Fx07", 0xF0FF#16, 0xF007#16⟩,
  ⟨27, "Fx0A", 0xF0FF#16, 0xF00A#16⟩,
  ⟨28, "Fx15", 0xF0FF#16, 0xF015#16⟩,
  ⟨29, "Fx18", 0xF0FF#16, 0xF018#16⟩,
  ⟨30, "Fx1E", 0xF0FF#16, 0xF01E#16⟩,
  ⟨31, "Fx29", 0xF0FF#16, 0xF029#16⟩,
  ⟨32, "Fx33", 0xF0FF#16, 0xF033#16⟩,
  ⟨33, "Fx55", 0xF0FF#16, 0xF055#16⟩,
  ⟨34, "Fx65", 0xF0FF#16, 0xF065#16⟩]

/-- The complete opcode map: 34 rows (R74). -/
def opcodeMap : List OpRow := opcodesControl ++ opcodesArith ++ opcodesIndex ++ opcodesF

/-- A word is a known instruction when some row selects it; every other word is an unknown word (R74, R77). -/
def knownWord (w : Word) : Bool := opcodeMap.any fun r => r.selects w

/-- The number of an instruction's row in the opcode map (R74). -/
def Instr.rowNumber : Instr → Nat
  | .cls => 1
  | .ret => 2
  | .jp _ => 3
  | .call _ => 4
  | .seImm _ _ => 5
  | .sneImm _ _ => 6
  | .seReg _ _ => 7
  | .ldImm _ _ => 8
  | .addImm _ _ => 9
  | .ldReg _ _ => 10
  | .orReg _ _ => 11
  | .andReg _ _ => 12
  | .xorReg _ _ => 13
  | .addReg _ _ => 14
  | .sub _ _ => 15
  | .shr _ _ => 16
  | .subn _ _ => 17
  | .shl _ _ => 18
  | .sneReg _ _ => 19
  | .ldI _ => 20
  | .jpV0 _ => 21
  | .rnd _ _ => 22
  | .drw _ _ _ => 23
  | .skp _ => 24
  | .sknp _ => 25
  | .ldVxDT _ => 26
  | .ldVxK _ => 27
  | .ldDTVx _ => 28
  | .ldSTVx _ => 29
  | .addI _ => 30
  | .ldF _ => 31
  | .ldB _ => 32
  | .storeRegs _ => 33
  | .loadRegs _ => 34

/-- An image that `load` accepts: at most `MAX_IMAGE` bytes (R167). -/
def imageFits (bytes : List Byte) : Bool := decide (bytes.length ≤ Config.maxImage)

end Sys2Proof
end

