-- ==== Sys2Proof/Decode.lean ====
section
/-! DEFINITION. The decoder, total on any word and any bytes and rejecting by name, and the encoder
(spec/30_encoding.md R70 to R77). -/

namespace Sys2Proof

/-- Why bytes are no instruction. -/
inductive Reject where
  /-- The word matches no row of the opcode map: an unknown word (R77). -/
  | unknownWord (w : Word)
  /-- Fewer than the two bytes of an instruction (R70). -/
  | needTwoBytes
  deriving DecidableEq, Repr

/-! ### The fields of a word (R71) -/

/-- `class` = `w[15:12]`, the first dispatch key. -/
def fieldClass (w : Word) : Nibble := w.extractLsb' 12 4

/-- `x` = `w[11:8]`. -/
def fieldX (w : Word) : Nibble := w.extractLsb' 8 4

/-- `y` = `w[7:4]`. -/
def fieldY (w : Word) : Nibble := w.extractLsb' 4 4

/-- `n` = `w[3:0]`. -/
def fieldN (w : Word) : Nibble := w.extractLsb' 0 4

/-- `nn` = `w[7:0]`. -/
def fieldNN (w : Word) : Byte := w.extractLsb' 0 8

/-- `nnn` = `w[11:0]`. -/
def fieldNNN (w : Word) : Addr12 := w.extractLsb' 0 12

/-- The instruction word of two bytes, the byte at the lower address in the high bits (R50, R70). -/
def wordOfBytes (hi lo : Byte) : Word := hi ++ lo

/-- The two bytes of a word in the order of their addresses (R50). -/
def bytesOfWord (w : Word) : List Byte := [w.extractLsb' 8 8, w.extractLsb' 0 8]

/-! ### Decoding by class, then by sub-discriminant (R75) -/

/-- Class 0: the whole `nnn` discriminates (R75). -/
def decodeClass0 (w : Word) : Except Reject Instr :=
  match fieldNNN w with
  | 0x0E0#12 => .ok .cls
  | 0x0EE#12 => .ok .ret
  | _ => .error (.unknownWord w)

/-- Class 5: `n` must be 0 (R75). -/
def decodeClass5 (w : Word) : Except Reject Instr :=
  match fieldN w with
  | 0x0#4 => .ok (.seReg (fieldX w) (fieldY w))
  | _ => .error (.unknownWord w)

/-- Class 8: `n` discriminates, 0 to 7 or 0xE (R75). -/
def decodeClass8 (w : Word) : Except Reject Instr :=
  match fieldN w with
  | 0x0#4 => .ok (.ldReg (fieldX w) (fieldY w))
  | 0x1#4 => .ok (.orReg (fieldX w) (fieldY w))
  | 0x2#4 => .ok (.andReg (fieldX w) (fieldY w))
  | 0x3#4 => .ok (.xorReg (fieldX w) (fieldY w))
  | 0x4#4 => .ok (.addReg (fieldX w) (fieldY w))
  | 0x5#4 => .ok (.sub (fieldX w) (fieldY w))
  | 0x6#4 => .ok (.shr (fieldX w) (fieldY w))
  | 0x7#4 => .ok (.subn (fieldX w) (fieldY w))
  | 0xE#4 => .ok (.shl (fieldX w) (fieldY w))
  | _ => .error (.unknownWord w)

/-- Class 9: `n` must be 0 (R75). -/
def decodeClass9 (w : Word) : Except Reject Instr :=
  match fieldN w with
  | 0x0#4 => .ok (.sneReg (fieldX w) (fieldY w))
  | _ => .error (.unknownWord w)

/-- Class E: `nn` discriminates (R75). -/
def decodeClassE (w : Word) : Except Reject Instr :=
  match fieldNN w with
  | 0x9E#8 => .ok (.skp (fieldX w))
  | 0xA1#8 => .ok (.sknp (fieldX w))
  | _ => .error (.unknownWord w)

/-- Class F: `nn` discriminates (R75). -/
def decodeClassF (w : Word) : Except Reject Instr :=
  match fieldNN w with
  | 0x07#8 => .ok (.ldVxDT (fieldX w))
  | 0x0A#8 => .ok (.ldVxK (fieldX w))
  | 0x15#8 => .ok (.ldDTVx (fieldX w))
  | 0x18#8 => .ok (.ldSTVx (fieldX w))
  | 0x1E#8 => .ok (.addI (fieldX w))
  | 0x29#8 => .ok (.ldF (fieldX w))
  | 0x33#8 => .ok (.ldB (fieldX w))
  | 0x55#8 => .ok (.storeRegs (fieldX w))
  | 0x65#8 => .ok (.loadRegs (fieldX w))
  | _ => .error (.unknownWord w)

/-- Decode one word: dispatch "by class, then by sub-discriminant where a class is overloaded" (R75, R92). -/
def decode (w : Word) : Except Reject Instr :=
  match fieldClass w with
  | 0x0#4 => decodeClass0 w
  | 0x1#4 => .ok (.jp (fieldNNN w))
  | 0x2#4 => .ok (.call (fieldNNN w))
  | 0x3#4 => .ok (.seImm (fieldX w) (fieldNN w))
  | 0x4#4 => .ok (.sneImm (fieldX w) (fieldNN w))
  | 0x5#4 => decodeClass5 w
  | 0x6#4 => .ok (.ldImm (fieldX w) (fieldNN w))
  | 0x7#4 => .ok (.addImm (fieldX w) (fieldNN w))
  | 0x8#4 => decodeClass8 w
  | 0x9#4 => decodeClass9 w
  | 0xA#4 => .ok (.ldI (fieldNNN w))
  | 0xB#4 => .ok (.jpV0 (fieldNNN w))
  | 0xC#4 => .ok (.rnd (fieldX w) (fieldNN w))
  | 0xD#4 => .ok (.drw (fieldX w) (fieldY w) (fieldN w))
  | 0xE#4 => decodeClassE w
  | 0xF#4 => decodeClassF w
  | _ => .error (.unknownWord w)

/-- Decode the instruction at the head of a list of bytes and give the rest of the list (R70: every
instruction is exactly 2 bytes). -/
def decodeBytes : List Byte → Except Reject (Instr × List Byte)
  | hi :: lo :: rest =>
    match decode (wordOfBytes hi lo) with
    | .ok i => .ok (i, rest)
    | .error e => .error e
  | _ => .error .needTwoBytes

/-! ### Encoding (R72, R74) -/

/-- Format `NNN`: `class`, `nnn`. -/
def formatNNN (cls : Nibble) (nnn : Addr12) : Word := cls ++ nnn

/-- Format `XNN`: `class`, `x`, `nn`. -/
def formatXNN (cls x : Nibble) (nn : Byte) : Word := cls ++ x ++ nn

/-- Formats `XY` and `XYN`: `class`, `x`, `y`, `n`. -/
def formatXYN (cls x y n : Nibble) : Word := cls ++ x ++ y ++ n

/-- The word of an instruction (R74). Format `X` is `XNN` with `nn` fixed (R72). -/
def encode : Instr → Word
  | .cls => 0x00E0#16
  | .ret => 0x00EE#16
  | .jp nnn => formatNNN 0x1 nnn
  | .call nnn => formatNNN 0x2 nnn
  | .seImm x nn => formatXNN 0x3 x nn
  | .sneImm x nn => formatXNN 0x4 x nn
  | .seReg x y => formatXYN 0x5 x y 0x0
  | .ldImm x nn => formatXNN 0x6 x nn
  | .addImm x nn => formatXNN 0x7 x nn
  | .ldReg x y => formatXYN 0x8 x y 0x0
  | .orReg x y => formatXYN 0x8 x y 0x1
  | .andReg x y => formatXYN 0x8 x y 0x2
  | .xorReg x y => formatXYN 0x8 x y 0x3
  | .addReg x y => formatXYN 0x8 x y 0x4
  | .sub x y => formatXYN 0x8 x y 0x5
  | .shr x y => formatXYN 0x8 x y 0x6
  | .subn x y => formatXYN 0x8 x y 0x7
  | .shl x y => formatXYN 0x8 x y 0xE
  | .sneReg x y => formatXYN 0x9 x y 0x0
  | .ldI nnn => formatNNN 0xA nnn
  | .jpV0 nnn => formatNNN 0xB nnn
  | .rnd x nn => formatXNN 0xC x nn
  | .drw x y n => formatXYN 0xD x y n
  | .skp x => formatXNN 0xE x 0x9E
  | .sknp x => formatXNN 0xE x 0xA1
  | .ldVxDT x => formatXNN 0xF x 0x07
  | .ldVxK x => formatXNN 0xF x 0x0A
  | .ldDTVx x => formatXNN 0xF x 0x15
  | .ldSTVx x => formatXNN 0xF x 0x18
  | .addI x => formatXNN 0xF x 0x1E
  | .ldF x => formatXNN 0xF x 0x29
  | .ldB x => formatXNN 0xF x 0x33
  | .storeRegs x => formatXNN 0xF x 0x55
  | .loadRegs x => formatXNN 0xF x 0x65

/-- The bytes of an instruction as memory holds them (R50). -/
def encodeBytes (i : Instr) : List Byte := bytesOfWord (encode i)

/-! ### The decoder on the opcode table's numbering -/

/-- The first `nbits` bits of `w` (numbered as spec/opcode_table.json numbers them: bit 0 is the least
significant bit of the one 16-bit word) as the bytes memory would hold. -/
def tableBytes (nbits w : Nat) : List Byte := bytesOfWord (BitVec.ofNat 16 (w % 2 ^ nbits))

/-- The instruction the decoder reads from an instruction whose bits are `w`; none where it refuses. -/
def decodeTableWord (nbits w : Nat) : Option Instr :=
  match decodeBytes (tableBytes nbits w) with
  | .ok (i, _) => some i
  | .error _ => none

end Sys2Proof
end

