-- ==== Sys2Proof/Machine/State.lean ====
section
/-! DEFINITION. The state of the machine, its value at reset, and the reasons a step can stop
(spec/10_state.md, spec/60_exceptions.md). -/

namespace Sys2Proof.Machine

/-- The memory `mem` (R33): a list of (address, byte) pairs in the canonical form `Memory.wf` of Ops.lean.
An address that is not listed reads as 0x00, the default `MEM_INIT` (log entry 5). -/
abbrev Memory := List Host.Cell

/-- The display surface `disp` (R34, R140): 64 columns of 32 pixels, `disp[x][y]`; true is on. -/
abbrev Display := Vector (Vector Bool 32) 64

/-- The keyboard latch `key` (R35, R150): 16 levels; true is pressed. -/
abbrev KeyLatch := Vector Bool 16

/-- `STATUS`, the engine's running state (R31). -/
inductive Status where
  /-- Steps fetch and execute. -/
  | running
  /-- `AwaitingKey(r)`: steps poll the keyboard latch until a key is pressed, which goes to `V[r]`. -/
  | awaitingKey (r : Nibble)
  deriving DecidableEq, Repr

/-- The parameters the source leaves open (R7), fixed for a whole run (R36). DESIGN CHOICE (log entry 3):
they stand in the state, which no step and no host operation writes, so that a statement about every state is
a statement about every value of them. -/
structure Params where
  /-- `STACK_DEPTH`: `none` is the unbounded stack (R32, R187). -/
  stackDepth : Option Nat
  /-- `STRICT_UNKNOWN` (R95, R188). -/
  strictUnknown : Bool
  /-- `MEM_INIT`, the memory that reset installs (R7, R38), in canonical form. -/
  memInit : Memory
  deriving DecidableEq, Repr

/-- The default values of R7: unbounded stack, unknown words skipped, memory all zero. -/
def Params.default : Params := ⟨none, false, []⟩

/-- The ten components of the architectural state (spec/10_state.md), and the model's own fields `randIn`,
`randDraws` and `params`. -/
structure State where
  /-- `V[0]` to `V[15]`; `VF` = `V[15]` (R20, R22). -/
  V : Vector Byte 16
  /-- The program counter (R25). -/
  pc : Word
  /-- The index register (R29). -/
  I : Word
  /-- The delay timer (R30). -/
  DT : Byte
  /-- The sound timer (R30). -/
  ST : Byte
  /-- `STATUS` (R31). -/
  status : Status
  /-- The call stack, newest entry first (R32; log entry 6). -/
  stack : List Word
  /-- The 4096 bytes of memory (R33). -/
  mem : Memory
  /-- The display surface (R34). -/
  disp : Display
  /-- The keyboard latch (R35). -/
  key : KeyLatch
  /-- The model's own (log entry 2): random bytes the host has supplied, next one first (R173). -/
  randIn : List Byte
  /-- The model's own (log entry 2): how many random bytes have been drawn. -/
  randDraws : Nat
  /-- The model's own (log entry 3): the open parameters of R7. -/
  params : Params
  deriving DecidableEq, Repr

/-- The state after reset under parameters `p` (R38, R166, R210), with no random byte supplied or drawn. -/
def State.resetWith (p : Params) : State where
  V := Vector.replicate 16 0x00
  pc := 0x0200
  I := 0x0000
  DT := 0x00
  ST := 0x00
  status := .running
  stack := []
  mem := p.memInit
  disp := Vector.replicate 64 (Vector.replicate 32 false)
  key := Vector.replicate 16 false
  randIn := []
  randDraws := 0
  params := p

/-- The machine right after reset, with the default parameters of R7 (R38). -/
def State.reset : State := State.resetWith Params.default

/-- The errors that end a step (R185). A step that returns `Err` is a fault of the model, which R204 allows;
the fault carries `after`, the exact state the step leaves (R191), from which the host may step again (R192).
Safe (log entry 1): a run of the model ends where the host's loop would have to decide whether to go on. -/
inductive Fault where
  /-- `MemoryAccessError` (code 1). Raised by the fetch, `Dxyn`, `Fx33`, `Fx55` and `Fx65` when an access would
  touch an address above 4095; `info` is the highest address of the attempted range (R186). Safe. -/
  | memoryAccessError (info : Nat) (after : State)
  /-- `StackUnderflow` (code 2). Raised by `00EE` on the empty stack (R189). Safe. -/
  | stackUnderflow (after : State)
  /-- `StackOverflow` (code 3). Raised by `2nnn` when `STACK_DEPTH` is finite and the stack full (R187). Safe. -/
  | stackOverflow (after : State)
  /-- `UnknownInstruction` (code 4). Raised by an unknown word when `STRICT_UNKNOWN` is true (R188). Safe. -/
  | unknownInstruction (w : Word) (after : State)
  deriving DecidableEq, Repr

/-- Why the model gives an instruction no meaning. No arm of `exec` answers it. -/
inductive Refusal where
  /-- The instruction of this mnemonic has no meaning in the model yet. Raised by an arm of `exec` only. Safe. -/
  | notModelled (mnemonic : String)
  deriving DecidableEq, Repr

/-- The outcome of an instruction or a step. -/
abbrev Outcome := Host.Outcome State Fault Refusal

end Sys2Proof.Machine
end

