-- ==== Sys2Proof/Machine/Ops.lean ====
section
/-! DEFINITION. The named operations over memory, registers, stack and random input, the range check, raising
an error, and the fetch (spec/00_scope.md R11 to R14, spec/20_memory.md, spec/40_step.md R91).

There is no return from an exception beside `raise`: "There is no trap-return instruction and nothing to
return from" (spec/60_exceptions.md R192). -/

namespace Sys2Proof.Machine

/-! ### Memory (R33, R50 to R57) -/

/-- What an address that the list does not name reads as: the default `MEM_INIT`, 0x00 (R7, R38; log entry 5). -/
def Memory.unlisted : Byte := 0x00

/-- `MemRead(a, 1)` (R12). -/
def Memory.read : Memory → Nat → Byte
  | [], _ => Memory.unlisted
  | (a', b) :: rest, a => if a' = a then b else Memory.read rest a

/-- A listed cell, or nothing where the byte is what an unlisted address reads as. -/
def Memory.cell (a : Nat) (b : Byte) (rest : Memory) : Memory :=
  if b = Memory.unlisted then rest else (a, b) :: rest

/-- `MemWrite(a, 1, b)` (R12), keeping the canonical form. -/
def Memory.write : Memory → Nat → Byte → Memory
  | [], a, b => Memory.cell a b []
  | (a', b') :: rest, a, b =>
    if a < a' then Memory.cell a b ((a', b') :: rest)
    else if a = a' then Memory.cell a b rest
    else (a', b') :: Memory.write rest a b

/-- The addresses rise strictly from above `lo`, exist (R33), and no cell lists the unlisted byte. -/
def Memory.wfFrom : Nat → Memory → Bool
  | _, [] => true
  | lo, (a, b) :: rest =>
    decide (lo ≤ a) && decide (a < Config.memSize) && decide (b ≠ Memory.unlisted) && Memory.wfFrom (a + 1) rest

/-- The canonical form: equal memories are equal lists. -/
def Memory.wf (m : Memory) : Bool := Memory.wfFrom 0 m

/-- Write bytes at ascending addresses from `a` (R53). -/
def Memory.storeBytes (m : Memory) (a : Nat) : List Byte → Memory
  | [] => m
  | b :: bs => Memory.storeBytes (m.write a b) (a + 1) bs

/-! ### Registers (R11, R20) -/

/-- `V[x]`. -/
def State.getV (s : State) (x : Nibble) : Byte := s.V[x.toNat]'x.isLt

/-- `V[x] <- b`. -/
def State.setV (s : State) (x : Nibble) (b : Byte) : State := { s with V := s.V.set x.toNat b x.isLt }

/-- `VF` = `V[15]` (R22). -/
def State.getVF (s : State) : Byte := s.getV 0xF

/-- `VF <- b` (R22). -/
def State.setVF (s : State) (b : Byte) : State := s.setV 0xF b

/-- `V[0]` to `V[x]` in ascending order: the range of `Fx55` (R73, R134). -/
def State.regRange (s : State) (x : Nibble) : List Byte := s.V.toList.take (x.toNat + 1)

/-- Load `V[0]` to `V[x]` from memory at `base`, the registers above `x` keeping their values (R135). -/
def State.loadRegRange (s : State) (x : Nibble) (base : Nat) : State :=
  { s with V := Vector.ofFn fun k : Fin 16 => if k.val ≤ x.toNat then s.mem.read (base + k.val) else s.V[k] }

/-- `pc <- target` (R26). -/
def State.setPc (s : State) (target : Word) : State := { s with pc := target }

/-- `I <- w` (R29). -/
def State.setI (s : State) (w : Word) : State := { s with I := w }

/-- `DT <- b` (R30). -/
def State.setDT (s : State) (b : Byte) : State := { s with DT := b }

/-- `ST <- b` (R30). -/
def State.setST (s : State) (b : Byte) : State := { s with ST := b }

/-- `STATUS <- st` (R31). -/
def State.setStatus (s : State) (st : Status) : State := { s with status := st }

/-- Store bytes in `mem` at ascending addresses from `a` (R53). -/
def State.store (s : State) (a : Nat) (bytes : List Byte) : State := { s with mem := s.mem.storeBytes a bytes }

/-- The display surface after an instruction that draws or clears (R34). -/
def State.setDisp (s : State) (d : Display) : State := { s with disp := d }

/-! ### Sequential flow and skips (R25, R26, R108) -/

/-- `pc <- pc + 2` (R26): what the fetch and a taken skip do. -/
def State.advance (s : State) : State := s.setPc (s.pc + 2)

/-- Skip the next instruction if `c` (R108). -/
def State.skipIf (s : State) (c : Bool) : State := if c then s.advance else s

/-! ### Call stack (R32) -/

/-- `push(w)`. -/
def State.push (s : State) (w : Word) : State := { s with stack := w :: s.stack }

/-- `length(stack) = STACK_DEPTH` under a finite `STACK_DEPTH`; never under the unbounded default (R102, R187). -/
def State.stackFull (s : State) : Bool :=
  match s.params.stackDepth with
  | none => false
  | some d => decide (d ≤ s.stack.length)

/-! ### The random byte (R14, R121, R173) -/

/-- `RandByte()`: the next byte the host has supplied, else a free value (log entry 2). -/
def State.randByte (s : State) : Byte :=
  match s.randIn with
  | r :: _ => r
  | [] => Config.freeRandomByte s.randDraws

/-- One byte of the random input is consumed (R173). -/
def State.consumeRandom (s : State) : State :=
  { s with randIn := s.randIn.tail, randDraws := s.randDraws + 1 }

/-! ### Errors (R12, R13, R185, R191) -/

/-- `raise <Error>(info)`: the step ends at once with an error for the host, and the state is what it is
(R13, R191). "Nothing is saved anywhere": no exception register is written and no handler is entered. -/
def raise (error : State → Fault) (s : State) : Outcome := .fault (error s)

/-- `CheckRange(base, len)`: the address to report when the range leaves memory, computed over the unbounded
integers (R12, R56). -/
def checkRange (base len : Nat) : Option Nat :=
  if 0 < len ∧ Config.memSize - 1 < base + len - 1 then some (base + len - 1) else none

/-- Run `k` when `CheckRange(base, len)` passes, else raise `MemoryAccessError`: the check comes before the first
effect (R12, R57). -/
def withRange (base len : Nat) (s : State) (k : Outcome) : Outcome :=
  match checkRange base len with
  | some a => raise (.memoryAccessError a) s
  | none => k

/-! ### Fetch (R91) -/

/-- The instruction word at `pc`: `MemRead(pc, 1) ++ MemRead(pc + 1, 1)`, first byte high (R50, R91). -/
def State.fetchWord (s : State) : Word :=
  wordOfBytes (s.mem.read s.pc.toNat) (s.mem.read (s.pc.toNat + 1))

/-- The precondition of the fetch, `pc + 1 < 4096` (R91). -/
def State.canFetch (s : State) : Bool := decide (s.pc.toNat + 1 < Config.memSize)

/-- `Unknown(w)`, run with `pc` already past the word: a no-op, or `UnknownInstruction` under `STRICT_UNKNOWN`
(R95). The diagnostic is an output: `diagnostic` of HostOps.lean. -/
def execUnknown (w : Word) (s : State) : Outcome :=
  if s.params.strictUnknown then raise (.unknownInstruction w) s else .next s

end Sys2Proof.Machine
end

