-- ==== Sys2Proof/Machine/Operands.lean ====
section
/-! DEFINITION. Operand forms: immediates, the key index, the effective address, decimal digits and sprite bits
(spec/30_encoding.md R73, spec/43_index_memory.md R136, spec/45_keyboard_timers.md R151). -/

namespace Sys2Proof.Machine

/-- `zext_16(nnn)` (R73). -/
def addrImm (nnn : Addr12) : Word := nnn.setWidth 16

/-- `zext_16(b)` of a register (R107, R131, R132). -/
def zext16 (b : Byte) : Word := b.setWidth 16

/-- `zext_8(k)` of a key index (R93). -/
def keyByte (k : Nibble) : Byte := k.setWidth 8

/-- The key an instruction names: `V[x][3:0]`, bits 7 to 4 ignored (R151, decision D10). -/
def keyIndex (b : Byte) : Nibble := b.extractLsb' 0 4

/-- The base `I` of every data access, as an unbounded integer (R136). -/
def State.base (s : State) : Nat := s.I.toNat

/-- The three decimal digits of a byte, hundreds, tens, ones, each a byte of its own (R133). -/
def bcdDigits (v : Byte) : List Byte :=
  [BitVec.ofNat 8 (v.toNat / 100), BitVec.ofNat 8 (v.toNat / 10 % 10), BitVec.ofNat 8 (v.toNat % 10)]

/-- Bit `7 − col` of a sprite byte: "columns 0..7, most-significant first" (R145). -/
def spriteBit (b : Byte) (col : Nat) : Bool := b.getLsbD (7 - col)

/-- The glyph address `Vx × 5` (R132). -/
def glyphAddr (b : Byte) : Word := zext16 b * BitVec.ofNat 16 Config.fontStride

end Sys2Proof.Machine
end

