-- ==== Sys2Proof/Machine/Flags.lean ====
section
/-! DEFINITION. The one flag, `VF`: its values and how an instruction writes it (spec/10_state.md R22 to R24,
spec/42_alu.md R122, R123). -/

namespace Sys2Proof.Machine

/-- A flag value as a full byte, 0x00 or 0x01 (R23). -/
def flagByte (f : Bool) : Byte := if f then 0x01 else 0x00

/-- Carry of `a + b`: "1 if the unsigned sum exceeded 255, else 0" (R122). -/
def carryOf (a b : Byte) : Bool := decide (255 < a.toNat + b.toNat)

/-- Not-borrow of `a − b`: 1 when `a ≥ b`, equality included (R122). -/
def noBorrowOf (a b : Byte) : Bool := decide (b.toNat ≤ a.toNat)

/-- The bit a right shift sends out, bit 0 (R118). -/
def shiftedOutRight (a : Byte) : Bool := a.getLsbD 0

/-- The bit a left shift sends out, bit 7 (R120). -/
def shiftedOutLeft (a : Byte) : Bool := a.getLsbD 7

/-- Write the flag (R23). -/
def State.setFlag (s : State) (f : Bool) : State := s.setVF (flagByte f)

/-- Write a result and then the flag: "the flag write is the later one" (R24, R123, decision D7). -/
def State.setResultAndFlag (s : State) (x : Nibble) (result : Byte) (f : Bool) : State :=
  (s.setV x result).setFlag f

end Sys2Proof.Machine
end

