-- ==== Sys2Proof/Machine/Alu.lean ====
section
/-! DEFINITION. Register load, arithmetic, logic, shift and random: `6xnn 7xnn 8xy_ Cxnn` (spec/42_alu.md). All
sources are read before any register is written (R123). -/

namespace Sys2Proof.Machine

/-- `6xnn` (R110). -/
def execLdImm (x : Nibble) (nn : Byte) (s : State) : Outcome := .next (s.setV x nn)

/-- `7xnn`: modulo 256, no flag (R111). -/
def execAddImm (x : Nibble) (nn : Byte) (s : State) : Outcome := .next (s.setV x (s.getV x + nn))

/-- `8xy0` (R112). -/
def execLdReg (x y : Nibble) (s : State) : Outcome := .next (s.setV x (s.getV y))

/-- `8xy1`: no flag (R113). -/
def execOr (x y : Nibble) (s : State) : Outcome := .next (s.setV x (s.getV x ||| s.getV y))

/-- `8xy2`: no flag (R114). -/
def execAnd (x y : Nibble) (s : State) : Outcome := .next (s.setV x (s.getV x &&& s.getV y))

/-- `8xy3`: no flag (R115). -/
def execXor (x y : Nibble) (s : State) : Outcome := .next (s.setV x (s.getV x ^^^ s.getV y))

/-- `8xy4`: the sum modulo 256, then the carry (R116). -/
def execAddReg (x y : Nibble) (s : State) : Outcome :=
  .next (s.setResultAndFlag x (s.getV x + s.getV y) (carryOf (s.getV x) (s.getV y)))

/-- `8xy5`: `Vx − Vy` modulo 256, then the not-borrow (R117). -/
def execSub (x y : Nibble) (s : State) : Outcome :=
  .next (s.setResultAndFlag x (s.getV x - s.getV y) (noBorrowOf (s.getV x) (s.getV y)))

/-- `8xy6`: `Vx >> 1` in place, then bit 0 of the old `Vx`; `V[y]` is not read (R118, R76). -/
def execShr (x _y : Nibble) (s : State) : Outcome :=
  .next (s.setResultAndFlag x (s.getV x >>> 1) (shiftedOutRight (s.getV x)))

/-- `8xy7`: `Vy − Vx` modulo 256, then the not-borrow (R119). -/
def execSubn (x y : Nibble) (s : State) : Outcome :=
  .next (s.setResultAndFlag x (s.getV y - s.getV x) (noBorrowOf (s.getV y) (s.getV x)))

/-- `8xyE`: `Vx << 1` modulo 256 in place, then bit 7 of the old `Vx`; `V[y]` is not read (R120, R76). -/
def execShl (x _y : Nibble) (s : State) : Outcome :=
  .next (s.setResultAndFlag x (s.getV x <<< 1) (shiftedOutLeft (s.getV x)))

/-- `Cxnn`: one random byte is drawn and consumed; no flag (R121, R173). -/
def execRnd (x : Nibble) (nn : Byte) (s : State) : Outcome :=
  .next (s.consumeRandom.setV x (s.randByte &&& nn))

end Sys2Proof.Machine
end

