-- ==== Sys2Proof/Machine/ControlFlow.lean ====
section
/-! DEFINITION. Control transfer: `00EE 1nnn 2nnn 3xnn 4xnn 5xy0 9xy0 Bnnn` (spec/41_control_flow.md). On entry
`pc` is already past the instruction (R25). -/

namespace Sys2Proof.Machine

/-- `00EE`: pop the stack into `pc`; `StackUnderflow` on the empty stack (R100). -/
def execRet (s : State) : Outcome :=
  match s.stack with
  | [] => raise .stackUnderflow s
  | a :: rest => .next { s with pc := a, stack := rest }

/-- `1nnn` (R101). -/
def execJp (nnn : Addr12) (s : State) : Outcome := .next (s.setPc (addrImm nnn))

/-- `2nnn`: push the advanced `pc`, then jump; `StackOverflow` before the push on a full finite stack (R102, R187). -/
def execCall (nnn : Addr12) (s : State) : Outcome :=
  if s.stackFull then raise .stackOverflow s else .next ((s.push s.pc).setPc (addrImm nnn))

/-- `3xnn` (R103). -/
def execSeImm (x : Nibble) (nn : Byte) (s : State) : Outcome := .next (s.skipIf (s.getV x == nn))

/-- `4xnn` (R104). -/
def execSneImm (x : Nibble) (nn : Byte) (s : State) : Outcome := .next (s.skipIf (s.getV x != nn))

/-- `5xy0` (R105). -/
def execSeReg (x y : Nibble) (s : State) : Outcome := .next (s.skipIf (s.getV x == s.getV y))

/-- `9xy0` (R106). -/
def execSneReg (x y : Nibble) (s : State) : Outcome := .next (s.skipIf (s.getV x != s.getV y))

/-- `Bnnn`: `pc := nnn + V0`, not reduced modulo 4096 (R107). -/
def execJpV0 (nnn : Addr12) (s : State) : Outcome := .next (s.setPc (addrImm nnn + zext16 (s.getV 0)))

end Sys2Proof.Machine
end

