-- ==== Sys2Proof/Machine/DisplayUnit.lean ====
section
/-! DEFINITION. The display surface, the sprite compositor and `00E0 Dxyn` (spec/44_display.md). -/

namespace Sys2Proof.Machine

/-- `clear()`: "sets every pixel false" (R141). -/
def Display.clear : Display := Vector.replicate 64 (Vector.replicate 32 false)

/-- The pixel that the coordinates `x`, `y` wrap to, `disp[x mod 64][y mod 32]` (R142). -/
def Display.wrapped (d : Display) (x y : Nat) : Bool :=
  (d[x % 64]'(Nat.mod_lt x (by decide)))[y % 32]'(Nat.mod_lt y (by decide))

/-- Put one pixel of the grid, coordinates wrapped (R142). -/
def Display.put (d : Display) (x y : Nat) (p : Bool) : Display :=
  d.set (x % 64) ((d[x % 64]'(Nat.mod_lt x (by decide))).set (y % 32) p (Nat.mod_lt y (by decide)))
    (Nat.mod_lt x (by decide))

/-- `plot(x, y, bit)`: the new surface and the collision (R142). -/
def Display.plot (d : Display) (x y : Nat) (bit : Bool) : Display × Bool :=
  (d.put x y (d.wrapped x y ^^ bit), d.wrapped x y && bit)

/-- The surface while a sprite is drawn, and whether a plot has collided. -/
structure Canvas where
  disp : Display
  hit  : Bool
  deriving DecidableEq, Repr

/-- One sprite bit: plotted if it is set (R145). -/
def Canvas.drawBit (c : Canvas) (x y : Nat) (bit : Bool) : Canvas :=
  if bit then ⟨(c.disp.plot x y true).1, c.hit || (c.disp.plot x y true).2⟩ else c

/-- Columns 0 to `cols − 1` of one sprite byte at `(x0 + col, y)`, in ascending order (R145). -/
def Canvas.drawCols (c : Canvas) (x0 y : Nat) (b : Byte) : Nat → Canvas
  | 0 => c
  | cols + 1 => (c.drawCols x0 y b cols).drawBit (x0 + cols) y (spriteBit b cols)

/-- Rows 0 to `rows − 1` of the sprite at `base`, in ascending order (R145). -/
def Canvas.drawRows (c : Canvas) (m : Memory) (base x0 y0 : Nat) : Nat → Canvas
  | 0 => c
  | rows + 1 => (c.drawRows m base x0 y0 rows).drawCols x0 (y0 + rows) (m.read (base + rows)) 8

/-- The `n`-row sprite at `I`, drawn with its origin at (`V[x]`, `V[y]`) (R145). -/
def State.drawSprite (s : State) (x y n : Nibble) : Canvas :=
  Canvas.drawRows ⟨s.disp, false⟩ s.mem s.base (s.getV x).toNat (s.getV y).toNat n.toNat

/-- `00E0` (R144). -/
def execCls (s : State) : Outcome := .next (s.setDisp Display.clear)

/-- `Dxyn`: the range check, the plots, then `VF` once (R145); with `n` = 0 no check, no plot, `VF` := 0 (R146). -/
def execDrw (x y n : Nibble) (s : State) : Outcome :=
  withRange s.base n.toNat s
    (.next ((s.setDisp (s.drawSprite x y n).disp).setFlag (s.drawSprite x y n).hit))

end Sys2Proof.Machine
end

