-- ==== Sys2Proof/Machine/IndexMemory.lean ====
section
/-! DEFINITION. Index register and memory transfer: `Annn Fx1E Fx29 Fx33 Fx55 Fx65` (spec/43_index_memory.md).
`I` is never changed by a transfer (R136). -/

namespace Sys2Proof.Machine

/-- `Annn` (R130). -/
def execLdI (nnn : Addr12) (s : State) : Outcome := .next (s.setI (addrImm nnn))

/-- `Fx1E`: modulo 65536, no flag (R131). -/
def execAddI (x : Nibble) (s : State) : Outcome := .next (s.setI (s.I + zext16 (s.getV x)))

/-- `Fx29`: the whole 8-bit `Vx` times 5 (R132). -/
def execLdF (x : Nibble) (s : State) : Outcome := .next (s.setI (glyphAddr (s.getV x)))

/-- `Fx33`: the decimal digits of `Vx` at `I`, `I + 1`, `I + 2` (R133). -/
def execLdB (x : Nibble) (s : State) : Outcome :=
  withRange s.base 3 s (.next (s.store s.base (bcdDigits (s.getV x))))

/-- `Fx55`: `V0` to `Vx` at `I` to `I + x` (R134). -/
def execStoreRegs (x : Nibble) (s : State) : Outcome :=
  withRange s.base (x.toNat + 1) s (.next (s.store s.base (s.regRange x)))

/-- `Fx65`: `V0` to `Vx` from `I` to `I + x` (R135). -/
def execLoadRegs (x : Nibble) (s : State) : Outcome :=
  withRange s.base (x.toNat + 1) s (.next (s.loadRegRange x s.base))

end Sys2Proof.Machine
end

