-- ==== Sys2Proof/Machine/KeyboardTimers.lean ====
section
/-! DEFINITION. The keyboard latch, the key wait, and `Ex9E ExA1 Fx07 Fx0A Fx15 Fx18`
(spec/45_keyboard_timers.md, spec/40_step.md R93). -/

namespace Sys2Proof.Machine

/-- `is_pressed(k)` (R153). -/
def KeyLatch.isPressed (l : KeyLatch) (k : Nibble) : Bool := l[k.toNat]'k.isLt

/-- Keys 0 to 15 in ascending order. -/
def allKeys : List Nibble := [0, 1, 2, 3, 4, 5, 6, 7, 8, 9, 10, 11, 12, 13, 14, 15]

/-- `lowest_pressed()`: "returns the smallest index currently pressed, or none" (R152). -/
def KeyLatch.lowestPressed (l : KeyLatch) : Option Nibble := allKeys.find? fun k => KeyLatch.isPressed l k

/-- The key that `Ex9E` and `ExA1` test is pressed (R151). -/
def State.keyOfRegPressed (s : State) (x : Nibble) : Bool := KeyLatch.isPressed s.key (keyIndex (s.getV x))

/-- `WaitStep(r)`, a step in `AwaitingKey(r)`: nothing without a pressed key, else `V[r]` receives the lowest
pressed key and the engine runs again; no fetch (R93). -/
def waitStep (r : Nibble) (s : State) : State :=
  match KeyLatch.lowestPressed s.key with
  | none => s
  | some k => (s.setV r (keyByte k)).setStatus .running

/-- `Ex9E` (R154). -/
def execSkp (x : Nibble) (s : State) : Outcome := .next (s.skipIf (s.keyOfRegPressed x))

/-- `ExA1` (R155). -/
def execSknp (x : Nibble) (s : State) : Outcome := .next (s.skipIf (!s.keyOfRegPressed x))

/-- `Fx07` (R160). -/
def execLdVxDT (x : Nibble) (s : State) : Outcome := .next (s.setV x s.DT)

/-- `Fx0A`: only enters the wait; the keyboard is not looked at (R157, R94). -/
def execLdVxK (x : Nibble) (s : State) : Outcome := .next (s.setStatus (.awaitingKey x))

/-- `Fx15` (R161). -/
def execLdDTVx (x : Nibble) (s : State) : Outcome := .next (s.setDT (s.getV x))

/-- `Fx18` (R162). -/
def execLdSTVx (x : Nibble) (s : State) : Outcome := .next (s.setST (s.getV x))

end Sys2Proof.Machine
end

