-- ==== Sys2Proof/Machine/Engine.lean ====
section
/-! DEFINITION. The bodies of `step` and `withFetchWord` (spec/40_step.md R90 to R95), which Step.lean calls. -/

namespace Sys2Proof.Machine

/-- `Execute(w)`, with `pc` already past the word: the instruction the word decodes to, or the unknown-word
rule (R92, R95). -/
def execWord (w : Word) (s : State) : Outcome :=
  match decode w with
  | .ok i => exec i s
  | .error _ => execUnknown w s

/-- A step in `Running`: the fetch, which raises before anything changes, then the execution (R91, R92). -/
def fetchAndExecute (s : State) : Outcome :=
  if s.canFetch then execWord s.fetchWord s.advance
  else raise (.memoryAccessError (s.pc.toNat + 1)) s

/-- `step` (R90): in `AwaitingKey(r)` the wait rule and nothing else; in `Running` fetch and execute. -/
def engineStep (s : State) : Outcome :=
  match s.status with
  | .awaitingKey r => .next (waitStep r s)
  | .running => fetchAndExecute s

/-- Where the next step can be made to fetch: `pc`, or 0x200 where nothing can be fetched at `pc`. -/
def State.fetchPlace (s : State) : Word := if s.canFetch then s.pc else BitVec.ofNat 16 Config.programBase

/-- `s` with bytes stored where the next step fetches, the engine `Running` (log entry 10). -/
def State.placeAtFetch (s : State) (bytes : List Byte) : State :=
  ((s.setPc s.fetchPlace).setStatus .running).store s.fetchPlace.toNat bytes

end Sys2Proof.Machine
end

