-- ==== Sys2Proof/Machine/Step.lean ====
section
/-! DEFINITION. `step`, one fetch and execute cycle or one poll of the keyboard latch (spec/40_step.md R90), and
`withFetchWord`, a state whose next step runs a given word. -/

namespace Sys2Proof.Machine

/-- One step (R90). -/
def step (s : State) : Host.Outcome State Fault Refusal := engineStep s

/-- `s` with the instruction of bits `w` stored where the next step fetches, so that the next step runs it
(log entry 10). -/
def State.withFetchWord (s : State) (nbits w : Nat) : State := s.placeAtFetch (tableBytes nbits w)

end Sys2Proof.Machine
end

