-- ==== Sys2Proof/Machine/HostOps.lean ====
section
/-! DEFINITION. What crosses the boundary of the block between and around steps (spec/50_interfaces.md): the
operations of the environment, the read-outs, and the report of a step (its error code and its diagnostic). -/

namespace Sys2Proof.Machine

/-! ### Operations that change the state -/

/-- The failure of `load` (R190); never a step's error. -/
inductive LoadError where
  /-- The image is longer than 3584 bytes. -/
  | imageTooLong
  deriving DecidableEq, Repr

/-- `reset()`: every component at its reset value (R166, R210). The parameters are fixed for a run (R36), and
the random input belongs to the environment (log entry 11). -/
def State.resetOp (s : State) : State :=
  { State.resetWith s.params with randIn := s.randIn, randDraws := s.randDraws }

/-- `load(bytes)`: the bytes at 0x200, all or nothing, and nothing else (R167). -/
def State.load (s : State) (bytes : List Byte) : Except LoadError State :=
  if imageFits bytes then .ok (s.store Config.programBase bytes) else .error .imageTooLong

/-- `set_key(k, pressed)` (R153, R169). -/
def State.setKey (s : State) (k : Nibble) (pressed : Bool) : State :=
  { s with key := s.key.set k.toNat pressed k.isLt }

/-- One timer counts down to 0 and stays there (R172). -/
def tickDown (t : Byte) : Byte := if t = 0 then 0 else t - 1

/-- `timer_tick()` (R172). -/
def State.timerTick (s : State) : State := { s with DT := tickDown s.DT, ST := tickDown s.ST }

/-- The environment writes down random bytes, consumed one per executed `Cxnn` in order (R173). -/
def State.supplyRandom (s : State) (bytes : List Byte) : State := { s with randIn := s.randIn ++ bytes }

/-! ### Read-outs (R143, R153, R170, R176) -/

/-- `pixel_at(x, y)`; the ports are 6 and 5 bits wide, so no coordinate outside the grid can be asked for. -/
def Display.pixelAt (d : Display) (x : BitVec 6) (y : BitVec 5) : Bool := (d[x.toNat]'x.isLt)[y.toNat]'y.isLt

/-- `pixel_grid()`. -/
def State.pixelGrid (s : State) : Display := s.disp

/-- `delay_timer()`. -/
def State.delayTimer (s : State) : Byte := s.DT

/-- `sound_timer()`. -/
def State.soundTimer (s : State) : Byte := s.ST

/-- `awaiting_key`, `await_reg`: the register while the engine waits. -/
def State.awaiting (s : State) : Option Nibble :=
  match s.status with
  | .running => none
  | .awaitingKey r => some r

/-! ### The report of a step -/

/-- The numeric code of an error; 0 is `Ok` (R185, decision D19). -/
def Fault.code : Fault → Nat
  | .memoryAccessError _ _ => 1
  | .stackUnderflow _ => 2
  | .stackOverflow _ => 3
  | .unknownInstruction _ _ => 4

/-- The info value an error carries (R185). -/
def Fault.info : Fault → Option Nat
  | .memoryAccessError a _ => some a
  | .stackUnderflow _ => none
  | .stackOverflow _ => none
  | .unknownInstruction w _ => some w.toNat

/-- The state an error leaves (R191). -/
def Fault.after : Fault → State
  | .memoryAccessError _ s => s
  | .stackUnderflow s => s
  | .stackOverflow s => s
  | .unknownInstruction _ s => s

/-- `step_err` (R176, R185). -/
def errorCode : Outcome → Nat
  | .next _ => 0
  | .fault f => f.code
  | .refused _ => 0

/-- The state after a step, from which the next step runs whether or not this one erred: nothing is latched
(R192). -/
def stateAfter (s : State) : State :=
  match step s with
  | .next t => t
  | .fault f => f.after
  | .refused _ => s

/-- The word the next step executes: there is one when the engine is `Running` and the fetch succeeds (R91). -/
def State.nextWord (s : State) : Option Word :=
  match s.status with
  | .awaitingKey _ => none
  | .running => if s.canFetch then some s.fetchWord else none

/-- The instruction the next step executes, if its word is a known one (R92). -/
def State.nextInstr (s : State) : Option Instr :=
  match s.nextWord with
  | none => none
  | some w =>
    match decode w with
    | .ok i => some i
    | .error _ => none

/-- The diagnostic event of the step from `s`: the word, when it is an unknown one (R95, R171). An output of the
step, not state (R36; log entry 8). -/
def State.diagnostic (s : State) : Option Word :=
  match s.nextWord with
  | none => none
  | some w =>
    match decode w with
    | .ok _ => none
    | .error _ => some w

/-! ### Interleavings (R165, R175) -/

/-- What the host may do between two steps that changes the state, and the step itself. -/
inductive Event where
  /-- `step`. -/
  | step
  /-- `reset()`. -/
  | reset
  /-- `load(bytes)`; a rejected image changes nothing. -/
  | load (bytes : List Byte)
  /-- `set_key(k, pressed)`. -/
  | setKey (k : Nibble) (pressed : Bool)
  /-- `timer_tick()`. -/
  | timerTick
  /-- The environment's random bytes. -/
  | supplyRandom (bytes : List Byte)
  deriving DecidableEq, Repr

/-- The state after one event; the host may go on after an error (R192). -/
def Event.act : Event → State → State
  | .step, s => stateAfter s
  | .reset, s => s.resetOp
  | .load bytes, s =>
    match s.load bytes with
    | .ok t => t
    | .error _ => s
  | .setKey k pressed, s => s.setKey k pressed
  | .timerTick, s => s.timerTick
  | .supplyRandom bytes, s => s.supplyRandom bytes

end Sys2Proof.Machine
end

