-- ==== Sys2Proof/Safety.lean ====
section
/-! DEFINITION. The terms claims use: the invariant of the state, the reachable states, safe steps and the end of a
run (spec/10_state.md R39, spec/50_interfaces.md R165, spec/70_reset_and_hazards.md R215). -/

namespace Sys2Proof.Machine

/-- The invariant: memory and `MEM_INIT` are canonical and inside the 4096 bytes (R33); `pc` ≤ 0x10FE (R28);
every stack entry is in 2 to 4096 (R39); a finite stack never holds more than `STACK_DEPTH` entries (R187). -/
abbrev State.Inv (s : State) : Prop :=
  s.mem.wf = true ∧ s.params.memInit.wf = true ∧ s.pc.toNat ≤ 0x10FE ∧
  (∀ e ∈ s.stack, 2 ≤ e.toNat ∧ e.toNat ≤ 4096) ∧
  (∀ d ∈ s.params.stackDepth, s.stack.length ≤ d)

/-- The states reachable under parameters `p` by whole steps and whole host operations in any order (R165). -/
inductive Reachable (p : Params) : State → Prop
  /-- Every run starts from reset (R211). -/
  | reset : Reachable p (State.resetWith p)
  /-- One more step or host operation. -/
  | act (s : State) (e : Event) : Reachable p s → Reachable p (e.act s)

/-- The step from `s` returns `Ok` (R13). -/
def State.stepsOk (s : State) : Prop := ∃ t, step s = .next t

/-- End of a run, form (a): the program jumps to itself (R215). -/
def State.parked (s : State) : Prop :=
  ∃ a : Addr12, s.nextInstr = some (.jp a) ∧ s.pc = addrImm a

/-- End of a run, form (c): the step returns `Err` (R215). -/
def State.errs (s : State) : Prop := ∃ f, step s = .fault f

end Sys2Proof.Machine
end

