-- ==== Sys2Proof/Certificates/Slice0/Obligations.lean ====
section
/-! DEFINITION. The statements about the model, and the words they are written in: parts of the state, frames, and
when an instruction completes. -/

namespace Sys2Proof.Machine

/-! ### Frames -/

/-- A part of the state: one of the ten components of spec/10_state.md, the random input or the parameters. -/
inductive Part where
  | V | pc | I | DT | ST | status | stack | mem | disp | key | random | params
  deriving DecidableEq, Repr

/-- A part of the state is the same in `t` as in `s`; memory, registers, pixels and keys are read one by one. -/
def samePart (s t : State) : Part → Prop
  | .V => ∀ k, t.getV k = s.getV k
  | .pc => t.pc = s.pc
  | .I => t.I = s.I
  | .DT => t.DT = s.DT
  | .ST => t.ST = s.ST
  | .status => t.status = s.status
  | .stack => t.stack = s.stack
  | .mem => ∀ a, t.mem.read a = s.mem.read a
  | .disp => ∀ x y, t.disp.pixelAt x y = s.disp.pixelAt x y
  | .key => ∀ k, KeyLatch.isPressed t.key k = KeyLatch.isPressed s.key k
  | .random => t.randIn = s.randIn ∧ t.randDraws = s.randDraws
  | .params => t.params = s.params

/-- Every part of the state that is not in the list is the same in `t` as in `s`. -/
def onlyChanges (parts : List Part) (s t : State) : Prop := ∀ p, p ∉ parts → samePart s t p

/-- Every register that is not in the list is the same in `t` as in `s`. -/
def regsSameExcept (xs : List Nibble) (s t : State) : Prop := ∀ k, k ∉ xs → t.getV k = s.getV k

/-- When an instruction executes without raising, in terms of the state alone (R92, R186, R187, R189). -/
def completes : Instr → State → Prop
  | .ret, s => s.stack ≠ []
  | .call _, s => ∀ d, s.params.stackDepth = some d → s.stack.length < d
  | .drw _ _ n, s => n.toNat = 0 ∨ s.I.toNat + n.toNat ≤ 4096
  | .ldB _, s => s.I.toNat + 3 ≤ 4096
  | .storeRegs x, s => s.I.toNat + x.toNat + 1 ≤ 4096
  | .loadRegs x, s => s.I.toNat + x.toNat + 1 ≤ 4096
  | _, _ => True

/-- The instruction is a skip and its condition holds (R103 to R106, R154, R155). -/
def skipTaken : Instr → State → Prop
  | .seImm x nn, s => s.getV x = nn
  | .sneImm x nn, s => s.getV x ≠ nn
  | .seReg x y, s => s.getV x = s.getV y
  | .sneReg x y, s => s.getV x ≠ s.getV y
  | .skp x, s => KeyLatch.isPressed s.key (keyIndex (s.getV x)) = true
  | .sknp x, s => KeyLatch.isPressed s.key (keyIndex (s.getV x)) = false
  | _, _ => False

/-- The instruction sets `pc` to a target of its own (R26). -/
def transfersControl : Instr → Prop
  | .ret => True
  | .jp _ => True
  | .call _ => True
  | .jpV0 _ => True
  | _ => False

/-- The step from `s` leaves the state `t`, with the result `Ok` or with an error. -/
def stepLeaves (s t : State) : Prop := step s = .next t ∨ ∃ f, step s = .fault f ∧ t = f.after

/-- The bit in column `col` of row `row` of the sprite at `I` is set: columns 0 to 7, most-significant first, so that
bit 7 is column 0 (R145). -/
def spriteBitAt (s : State) (row col : Nat) : Prop := (s.mem.read (s.I.toNat + row)).getLsbD (7 - col) = true

/-- A set bit of the `n`-row sprite at `I`, drawn at (`V[x]`, `V[y]`), maps onto pixel (`px`, `py`): wrapping is
per pixel, 64 columns and 32 rows (R142, R145). -/
def spriteCovers (s : State) (x y n : Nibble) (px : BitVec 6) (py : BitVec 5) : Prop :=
  ∃ row col, row < n.toNat ∧ col < 8 ∧ spriteBitAt s row col ∧
    ((s.getV x).toNat + col) % 64 = px.toNat ∧ ((s.getV y).toNat + row) % 32 = py.toNat

/-! ### What memory holds after a store, and what reset leaves -/

/-- `b` is what address `a` holds once the storing instruction is executed: the byte the instruction stores there, or
the old byte at an address it does not store to (R133, R134). -/
def holdsAfter (s : State) (a : Nat) (b : Byte) : Instr → Prop
  | .storeRegs x =>
    (∀ k : Nibble, k.toNat ≤ x.toNat → a = s.I.toNat + k.toNat → b = s.getV k) ∧
    (a < s.I.toNat ∨ s.I.toNat + x.toNat < a → b = s.mem.read a)
  | .ldB x =>
    (a = s.I.toNat → b.toNat = (s.getV x).toNat / 100) ∧
    (a = s.I.toNat + 1 → b.toNat = (s.getV x).toNat / 10 % 10) ∧
    (a = s.I.toNat + 2 → b.toNat = (s.getV x).toNat % 10) ∧
    (a < s.I.toNat ∨ s.I.toNat + 2 < a → b = s.mem.read a)
  | _ => b = s.mem.read a

/-- `b` is what address `a` holds once the image is loaded: its byte of the image, or the old byte outside (R167). -/
def holdsAfterLoad (s : State) (bytes : List Byte) (a : Nat) (b : Byte) : Prop :=
  (∀ k, a = 0x200 + k → ∀ h : k < bytes.length, b = bytes[k]) ∧
  (a < 0x200 ∨ 0x200 + bytes.length ≤ a → b = s.mem.read a)

/-- The next step fetches the word with high byte `hi` and low byte `lo`. -/
def fetchesNext (t : State) (hi lo : Byte) : Prop :=
  ∃ w, t.nextWord = some w ∧ w.toNat = hi.toNat * 256 + lo.toNat

/-- Every component of the state is at its reset value (R38, R210); memory is the `MEM_INIT` of the parameters. -/
def atReset (s : State) : Prop :=
  s.pc = 0x200 ∧ (∀ k, s.getV k = 0) ∧ s.I = 0 ∧ s.DT = 0 ∧ s.ST = 0 ∧ s.status = .running ∧ s.stack = [] ∧
  (∀ a, s.mem.read a = s.params.memInit.read a) ∧ (∀ x y, s.disp.pixelAt x y = false) ∧
  (∀ k, KeyLatch.isPressed s.key k = false)

end Sys2Proof.Machine

open Sys2Proof Sys2Proof.Machine

/-! ### Encoding -/

/-- Every instruction decodes from its word and from its bytes, whatever bytes follow, with every operand at every
value; and no word decodes to an instruction whose word is another one, so no bit of a word is dropped. -/
def Obligations.DecodeEncodeRoundTrip : Prop :=
  (∀ i, decode (encode i) = .ok i) ∧
  (∀ i rest, decodeBytes (encodeBytes i ++ rest) = .ok (i, rest)) ∧
  (∀ w i, decode w = .ok i → encode i = w)

/-- R74: the rows of the opcode map are 34 and disjoint, an instruction's row is the only one that selects its word,
and the words that no row selects are the unknown ones. -/
def Obligations.DecoderFollowsTheOpcodeMap : Prop :=
  opcodeMap.length = 34 ∧
  (∀ w, ∀ r ∈ opcodeMap, ∀ r' ∈ opcodeMap, r.selects w = true → r'.selects w = true → r = r') ∧
  (∀ w i, decode w = .ok i → ∀ r ∈ opcodeMap, r.selects w = true ↔ r.num = i.rowNumber) ∧
  (∀ w, knownWord w = false ↔ decode w = .error (.unknownWord w))

/-- The unknown words are exactly those that 30_encoding.md section 4 lists (R77, which the spec marks as derived
from R74). -/
def Obligations.UnknownWordsAreExactlyTheListedOnes : Prop :=
  ∀ w : Word, decode w = .error (.unknownWord w) ↔
    (fieldClass w = 0x0 ∧ fieldNNN w ≠ 0x0E0 ∧ fieldNNN w ≠ 0x0EE) ∨
    (fieldClass w = 0x5 ∧ fieldN w ≠ 0) ∨
    (fieldClass w = 0x9 ∧ fieldN w ≠ 0) ∨
    (fieldClass w = 0x8 ∧ fieldN w ∈ [0x8, 0x9, 0xA, 0xB, 0xC, 0xD, 0xF]) ∨
    (fieldClass w = 0xE ∧ fieldNN w ∉ [0x9E, 0xA1]) ∨
    (fieldClass w = 0xF ∧ fieldNN w ∉ [0x07, 0x0A, 0x15, 0x18, 0x1E, 0x29, 0x33, 0x55, 0x65])

/-- One word of every family, written out from the opcode map, decodes to its instruction. -/
def Obligations.SampleWordsOfEveryFamilyDecode : Prop :=
  decode 0b0001001000000100#16 = .ok (.jp 0x204) ∧
  decode 0b0011101001000010#16 = .ok (.seImm 0xA 0x42) ∧
  decode 0b1000000100100111#16 = .ok (.subn 0x1 0x2) ∧
  decode 0b1100001100001111#16 = .ok (.rnd 0x3 0x0F) ∧
  decode 0b1111001001010101#16 = .ok (.storeRegs 0x2) ∧
  decode 0b1101000000010010#16 = .ok (.drw 0x0 0x1 0x2) ∧
  decode 0b1110001110011110#16 = .ok (.skp 0x3)

/-! ### The step -/

/-- R50 and the step: a running engine that can fetch reads the two bytes at `pc`, first byte high, moves `pc` past
them, and where the word decodes to an instruction the step is that instruction's execution. -/
def Obligations.StepRunsTheDecodedInstruction : Prop :=
  ∀ s : State, s.status = .running → s.pc.toNat + 1 < 4096 →
    s.fetchWord.toNat = (s.mem.read s.pc.toNat).toNat * 256 + (s.mem.read (s.pc.toNat + 1)).toNat ∧
    s.advance.pc.toNat = s.pc.toNat + 2 ∧ onlyChanges [.pc] s s.advance ∧
    ∀ i, decode s.fetchWord = .ok i → step s = exec i s.advance

/-- A fetch that would touch an address above 4095 is reported and changes nothing, `pc` included (the spec's
decision D3). -/
def Obligations.FailedFetchLeavesTheStateUnchanged : Prop :=
  ∀ s : State, s.status = .running → 4096 ≤ s.pc.toNat + 1 →
    step s = .fault (.memoryAccessError (s.pc.toNat + 1) s)

/-- An unknown word is skipped: the step only moves `pc` past it; under `STRICT_UNKNOWN` it raises with `pc` past it
(the spec's decision D13; the parameter stands in the state by log entry 3). -/
def Obligations.UnknownWordIsSkippedOrReported : Prop :=
  ∀ s : State, s.status = .running → s.pc.toNat + 1 < 4096 → knownWord s.fetchWord = false →
    (s.params.strictUnknown = false →
      ∃ t, step s = .next t ∧ t.pc.toNat = s.pc.toNat + 2 ∧ onlyChanges [.pc] s t ∧ s.diagnostic = some s.fetchWord) ∧
    (s.params.strictUnknown = true →
      ∃ t, step s = .fault (.unknownInstruction s.fetchWord t) ∧ t.pc.toNat = s.pc.toNat + 2 ∧
        onlyChanges [.pc] s t ∧ s.diagnostic = some s.fetchWord)

/-- A step emits a diagnostic exactly when it fetches an unknown word, and the event carries that word (R171; its
payload is the spec's decision D13, its form in the model log entry 8). -/
def Obligations.DiagnosticExactlyForUnknownWords : Prop :=
  ∀ (s : State) (w : Word), s.diagnostic = some w ↔
    s.status = .running ∧ s.pc.toNat + 1 < 4096 ∧ w = s.fetchWord ∧ knownWord w = false

/-- A step in `AwaitingKey(r)` changes nothing while no key is pressed; with `k` the lowest pressed key it stores `k`
in `V[r]`, runs again, and changes nothing else; it never errs and never fetches (R93; level sampling is the spec's
decision D11). -/
def Obligations.KeyWaitPollsTheLatch : Prop :=
  ∀ (s : State) (r : Nibble), s.status = .awaitingKey r →
    ((∀ k, KeyLatch.isPressed s.key k = false) → step s = .next s) ∧
    (∀ k, KeyLatch.isPressed s.key k = true → (∀ j, j.toNat < k.toNat → KeyLatch.isPressed s.key j = false) →
      ∃ t, step s = .next t ∧ (t.getV r).toNat = k.toNat ∧ t.status = .running ∧
        regsSameExcept [r] s t ∧ onlyChanges [.V, .status] s t)

/-- R152: the smallest pressed index, or none. -/
def Obligations.LowestPressedIsTheSmallestPressedKey : Prop :=
  ∀ l : KeyLatch,
    (KeyLatch.lowestPressed l = none ↔ ∀ k, KeyLatch.isPressed l k = false) ∧
    (∀ k, KeyLatch.lowestPressed l = some k ↔
      KeyLatch.isPressed l k = true ∧ ∀ j, j.toNat < k.toNat → KeyLatch.isPressed l j = false)

/-- R96: what a step never does, whether it returns `Ok` or an error. A step changes a timer only as the timer-writing
instructions do, no key ever, the stack only by call and return, memory only by `Fx33` and `Fx55`, the display only by
`00E0` and `Dxyn`, and consumes a random byte only when the fetched word is a `Cxnn`. -/
def Obligations.StepWritesOnlyWhatItsInstructionMay : Prop :=
  ∀ s t : State, stepLeaves s t →
    (∀ k, KeyLatch.isPressed t.key k = KeyLatch.isPressed s.key k) ∧
    (t.DT ≠ s.DT → ∃ x, s.nextInstr = some (.ldDTVx x) ∧ t.DT = s.getV x) ∧
    (t.ST ≠ s.ST → ∃ x, s.nextInstr = some (.ldSTVx x) ∧ t.ST = s.getV x) ∧
    (t.stack ≠ s.stack → s.nextInstr = some .ret ∨ ∃ nnn, s.nextInstr = some (.call nnn)) ∧
    (t.mem ≠ s.mem → ∃ x, s.nextInstr = some (.ldB x) ∨ s.nextInstr = some (.storeRegs x)) ∧
    (t.disp ≠ s.disp → s.nextInstr = some .cls ∨ ∃ x y n, s.nextInstr = some (.drw x y n)) ∧
    (t.randIn ≠ s.randIn ∨ t.randDraws ≠ s.randDraws → ∃ x nn, s.nextInstr = some (.rnd x nn))

/-- `I` is written by `Annn`, `Fx1E` and `Fx29` only (R29), `STATUS` by `Fx0A` and the resume step only (R31), and
no step writes a parameter (R36). -/
def Obligations.IndexAndStatusHaveOnlyTheirWriters : Prop :=
  ∀ s t : State, stepLeaves s t →
    (t.I ≠ s.I → (∃ nnn, s.nextInstr = some (.ldI nnn)) ∨
      ∃ x, s.nextInstr = some (.addI x) ∨ s.nextInstr = some (.ldF x)) ∧
    (t.status ≠ s.status →
      (∃ x, s.nextInstr = some (.ldVxK x) ∧ t.status = .awaitingKey x) ∨
      (∃ r k, s.status = .awaitingKey r ∧ KeyLatch.isPressed s.key k = true ∧ t.status = .running)) ∧
    t.params = s.params

/-- R26: how `pc` changes. In `AwaitingKey` no step changes it; in `Running` the fetch adds 2, a taken skip a further
2, `1nnn` and `2nnn` set it to `nnn`, `Bnnn` to `nnn + V[0]`, `00EE` to the popped value; no other instruction and no
error writes it beyond what the fetch did: a failed fetch leaves it, an error after a fetch leaves it 2 on; no host
operation but reset writes it. -/
def Obligations.ProgramCounterHasOnlyItsWriters : Prop :=
  (∀ (s t : State) (r : Nibble), s.status = .awaitingKey r → step s = .next t → t.pc = s.pc) ∧
  (∀ s t : State, s.status = .running → step s = .next t →
    (∀ nnn, s.nextInstr = some (.jp nnn) ∨ s.nextInstr = some (.call nnn) → t.pc.toNat = nnn.toNat) ∧
    (∀ nnn, s.nextInstr = some (.jpV0 nnn) → t.pc.toNat = nnn.toNat + (s.getV 0).toNat) ∧
    (s.nextInstr = some .ret → s.stack = t.pc :: t.stack) ∧
    (∀ i, s.nextInstr = some i → skipTaken i s → t.pc.toNat = s.pc.toNat + 4) ∧
    ((∀ i, s.nextInstr = some i → ¬ skipTaken i s ∧ ¬ transfersControl i) → t.pc.toNat = s.pc.toNat + 2)) ∧
  (∀ (s : State) (f : Fault), step s = .fault f →
    (s.nextWord = none → f.after.pc = s.pc) ∧ (s.nextWord ≠ none → f.after.pc.toNat = s.pc.toNat + 2)) ∧
  (∀ (s : State) (e : Event), e ≠ .step → e ≠ .reset → (e.act s).pc = s.pc)

/-! ### Invariants -/

/-- Every step keeps the invariant, whether it answers a next state or reports an error and leaves one: memory
canonical and inside the 4096 bytes, `pc` at most 0x10FE, every stack entry in 2 to 4096, a finite stack never over
its depth (R28 and R39, which the spec marks as derived). -/
def Obligations.StepKeepsTheInvariant : Prop :=
  ∀ s : State, s.Inv →
    (∀ t, step s = .next t → t.Inv) ∧ (∀ f, step s = .fault f → f.after.Inv)

/-- The state after reset meets the invariant. -/
def Obligations.ResetMeetsTheInvariant : Prop := State.reset.Inv

/-- In every state reachable from reset by whole steps (errors included) and whole host operations in any order, `pc`
is at most 0x10FE, every stack entry is in 2 to 4096 (R28 and R39, which the spec marks as derived) and the parameters
are those of the run (R36); and the memory list is canonical and lists nothing outside the 4096 bytes, which is the
model's own form of memory (log entry 6). -/
def Obligations.ReachableStatesAreBounded : Prop :=
  ∀ (p : Params) (s : State), p.memInit.wf = true → Reachable p s →
    s.pc.toNat ≤ 0x10FE ∧ (∀ e ∈ s.stack, 2 ≤ e.toNat ∧ e.toNat ≤ 4096) ∧ s.mem.wf = true ∧
    (∀ a, 4096 ≤ a → s.mem.read a = Memory.unlisted) ∧ s.params = p

/-! ### Errors -/

/-- An instruction completes exactly when its raising condition does not hold; each of the 34 has at most one. -/
def Obligations.InstructionCompletesExactlyWhen : Prop :=
  ∀ (i : Instr) (s : State), (∃ t, exec i s = .next t) ↔ completes i s

/-- An instruction that raises has changed nothing: the state it leaves is the one it started from, with `pc` already
past it; a step whose fetch raises leaves the whole state as it was (R191; the spec's decisions D3 and D4). -/
def Obligations.ExecuteErrorsChangeNothing : Prop :=
  (∀ (i : Instr) (s : State) (f : Fault), exec i s = .fault f → f.after = s) ∧
  (∀ (s : State) (f : Fault), step s = .fault f →
    (s.nextWord = none → f.after = s) ∧
    (s.nextWord ≠ none → f.after.pc.toNat = s.pc.toNat + 2 ∧ f.after = s.advance ∧ onlyChanges [.pc] s f.after))

/-- `MemoryAccessError` is raised in exactly five places, with the highest address of the attempted range (R186). The
state left is the one before the step after a failed fetch (R91, R191; the spec's decision D3), and that state with
`pc` past the instruction after the other four (R191; the spec's decision D4). -/
def Obligations.MemoryAccessErrorInExactlyFivePlaces : Prop :=
  ∀ (s u : State) (a : Nat), step s = .fault (.memoryAccessError a u) ↔
    (s.status = .running ∧ 4096 ≤ s.pc.toNat + 1 ∧ a = s.pc.toNat + 1 ∧ u = s) ∨
    (u = s.advance ∧
      ((∃ x y n, s.nextInstr = some (.drw x y n) ∧ 1 ≤ n.toNat ∧ 4095 < s.I.toNat + n.toNat - 1 ∧
          a = s.I.toNat + n.toNat - 1) ∨
       (∃ x, s.nextInstr = some (.ldB x) ∧ 4095 < s.I.toNat + 2 ∧ a = s.I.toNat + 2) ∨
       (∃ x, s.nextInstr = some (.storeRegs x) ∧ 4095 < s.I.toNat + x.toNat ∧ a = s.I.toNat + x.toNat) ∨
       (∃ x, s.nextInstr = some (.loadRegs x) ∧ 4095 < s.I.toNat + x.toNat ∧ a = s.I.toNat + x.toNat)))

/-- R189: `StackUnderflow` is raised only by `00EE` when the stack is empty. -/
def Obligations.StackUnderflowOnlyByReturnOnEmptyStack : Prop :=
  ∀ s u : State, step s = .fault (.stackUnderflow u) ↔
    s.nextInstr = some .ret ∧ s.stack = [] ∧ u = s.advance

/-- `StackOverflow` exists only under a finite `STACK_DEPTH` and `UnknownInstruction` only under `STRICT_UNKNOWN`
(R187, R188; the spec's decisions D5 and D13; the parameters stand in the state by log entry 3). -/
def Obligations.OtherErrorsOnlyUnderNonDefaultParameters : Prop :=
  (∀ s u : State, step s = .fault (.stackOverflow u) ↔
    ∃ nnn d, s.nextInstr = some (.call nnn) ∧ s.params.stackDepth = some d ∧ d ≤ s.stack.length ∧ u = s.advance) ∧
  (∀ (s u : State) (w : Word), step s = .fault (.unknownInstruction w u) ↔
    s.nextWord = some w ∧ knownWord w = false ∧ s.params.strictUnknown = true ∧ u = s.advance)

/-- No step of any state is refused: every word has a meaning. -/
def Obligations.NoStepIsRefused : Prop := ∀ (s : State) (r : Refusal), step s ≠ .refused r

/-! ### Control transfer -/

/-- R100: `00EE` pops the newest stack entry into `pc`, and raises `StackUnderflow` on the empty stack with nothing
changed. -/
def Obligations.ReturnPopsTheStackIntoPc : Prop :=
  decode 0x00EE#16 = .ok .ret ∧
  (∀ (s : State) (a : Word) (rest : List Word), s.stack = a :: rest →
    ∃ t, exec .ret s = .next t ∧ t.pc = a ∧ t.stack = rest ∧ onlyChanges [.pc, .stack] s t) ∧
  (∀ s : State, s.stack = [] → exec .ret s = .fault (.stackUnderflow s))

/-- R101: `1nnn` sets `pc` to `nnn`, zero-extended, and changes nothing else. -/
def Obligations.JumpSetsPc : Prop :=
  ∀ (nnn : Addr12) (s : State), decode (formatNNN 0x1 nnn) = .ok (.jp nnn) ∧
    ∃ t, exec (.jp nnn) s = .next t ∧ t.pc.toNat = nnn.toNat ∧ onlyChanges [.pc] s t

/-- R102: `2nnn` pushes the advanced `pc` and sets `pc` to `nnn`; with a finite `STACK_DEPTH` and a full stack it
raises `StackOverflow` before the push. -/
def Obligations.CallPushesAndJumps : Prop :=
  ∀ (nnn : Addr12) (s : State), decode (formatNNN 0x2 nnn) = .ok (.call nnn) ∧
    ((∀ d, s.params.stackDepth = some d → s.stack.length < d) →
      ∃ t, exec (.call nnn) s = .next t ∧ t.stack = s.pc :: s.stack ∧ t.pc.toNat = nnn.toNat ∧
        onlyChanges [.pc, .stack] s t) ∧
    (∀ d, s.params.stackDepth = some d → d ≤ s.stack.length → exec (.call nnn) s = .fault (.stackOverflow s))

/-- R103, R104: `3xnn` adds a further 2 to `pc` when `Vx = nn`, `4xnn` when `Vx ≠ nn`; nothing else changes. -/
def Obligations.SkipOnImmediate : Prop :=
  ∀ (x : Nibble) (nn : Byte) (s : State),
    decode (formatXNN 0x3 x nn) = .ok (.seImm x nn) ∧ decode (formatXNN 0x4 x nn) = .ok (.sneImm x nn) ∧
    (∃ t, exec (.seImm x nn) s = .next t ∧ t.pc = (if s.getV x = nn then s.pc + 2 else s.pc) ∧
      onlyChanges [.pc] s t) ∧
    (∃ t, exec (.sneImm x nn) s = .next t ∧ t.pc = (if s.getV x = nn then s.pc else s.pc + 2) ∧
      onlyChanges [.pc] s t)

/-- R105, R106: `5xy0` adds a further 2 to `pc` when `Vx = Vy`, `9xy0` when `Vx ≠ Vy`; nothing else changes. With
another low digit than 0 the two classes have only unknown words. -/
def Obligations.SkipOnRegisters : Prop :=
  ∀ (x y : Nibble) (s : State),
    decode (formatXYN 0x5 x y 0) = .ok (.seReg x y) ∧ decode (formatXYN 0x9 x y 0) = .ok (.sneReg x y) ∧
    (∀ n, n ≠ 0 → decode (formatXYN 0x5 x y n) = .error (.unknownWord (formatXYN 0x5 x y n)) ∧
      decode (formatXYN 0x9 x y n) = .error (.unknownWord (formatXYN 0x9 x y n))) ∧
    (∃ t, exec (.seReg x y) s = .next t ∧ t.pc = (if s.getV x = s.getV y then s.pc + 2 else s.pc) ∧
      onlyChanges [.pc] s t) ∧
    (∃ t, exec (.sneReg x y) s = .next t ∧ t.pc = (if s.getV x = s.getV y then s.pc else s.pc + 2) ∧
      onlyChanges [.pc] s t)

/-- `Bnnn` sets `pc` to `nnn + V0`, not reduced modulo 4096 (R107; that the sum is not reduced is the spec's decision
D26). -/
def Obligations.IndexedJumpAddsV0 : Prop :=
  ∀ (nnn : Addr12) (s : State), decode (formatNNN 0xB nnn) = .ok (.jpV0 nnn) ∧
    ∃ t, exec (.jpV0 nnn) s = .next t ∧ t.pc.toNat = nnn.toNat + (s.getV 0).toNat ∧ onlyChanges [.pc] s t

/-- A call and then a return restore `pc` to the address after the call instruction and leave everything else as it
was (spec/41_control_flow.md, the property quoted under `2nnn`). -/
def Obligations.CallThenReturnRestoresPc : Prop :=
  ∀ (s t : State) (nnn : Addr12), s.nextInstr = some (.call nnn) → step s = .next t → t.nextInstr = some .ret →
    ∃ u, step t = .next u ∧ u.pc.toNat = s.pc.toNat + 2 ∧ onlyChanges [.pc] s u

/-- A parked program, one that jumps to itself, is left unchanged by every step (R215; the end of a run is the spec's
decision D27). -/
def Obligations.ParkedProgramStaysPut : Prop := ∀ s : State, s.parked → step s = .next s

/-! ### Registers and arithmetic -/

/-- R110, R112: `6xnn` sets `Vx` to `nn`, `8xy0` sets `Vx` to `Vy`; nothing else changes. -/
def Obligations.LoadRegister : Prop :=
  ∀ (x y : Nibble) (nn : Byte) (s : State),
    decode (formatXNN 0x6 x nn) = .ok (.ldImm x nn) ∧ decode (formatXYN 0x8 x y 0x0) = .ok (.ldReg x y) ∧
    (∃ t, exec (.ldImm x nn) s = .next t ∧ t.getV x = nn ∧ regsSameExcept [x] s t ∧ onlyChanges [.V] s t) ∧
    (∃ t, exec (.ldReg x y) s = .next t ∧ t.getV x = s.getV y ∧ regsSameExcept [x] s t ∧ onlyChanges [.V] s t)

/-- R111: `7xnn` adds modulo 256 and updates no flag. -/
def Obligations.AddImmediateWrapsWithoutFlag : Prop :=
  ∀ (x : Nibble) (nn : Byte) (s : State), decode (formatXNN 0x7 x nn) = .ok (.addImm x nn) ∧
    ∃ t, exec (.addImm x nn) s = .next t ∧ (t.getV x).toNat = ((s.getV x).toNat + nn.toNat) % 256 ∧
      regsSameExcept [x] s t ∧ onlyChanges [.V] s t

/-- R113, R114, R115: the bitwise operations, bit by bit, with no flag. -/
def Obligations.LogicalOperationsLeaveTheFlag : Prop :=
  ∀ (x y : Nibble) (s : State),
    decode (formatXYN 0x8 x y 0x1) = .ok (.orReg x y) ∧ decode (formatXYN 0x8 x y 0x2) = .ok (.andReg x y) ∧
    decode (formatXYN 0x8 x y 0x3) = .ok (.xorReg x y) ∧
    (∃ t, exec (.orReg x y) s = .next t ∧
      (∀ b, (t.getV x).getLsbD b = ((s.getV x).getLsbD b || (s.getV y).getLsbD b)) ∧
      regsSameExcept [x] s t ∧ onlyChanges [.V] s t) ∧
    (∃ t, exec (.andReg x y) s = .next t ∧
      (∀ b, (t.getV x).getLsbD b = ((s.getV x).getLsbD b && (s.getV y).getLsbD b)) ∧
      regsSameExcept [x] s t ∧ onlyChanges [.V] s t) ∧
    (∃ t, exec (.xorReg x y) s = .next t ∧
      (∀ b, (t.getV x).getLsbD b = ((s.getV x).getLsbD b ^^ (s.getV y).getLsbD b)) ∧
      regsSameExcept [x] s t ∧ onlyChanges [.V] s t)

/-- `8xy4`, `8xy5`, `8xy7`: the result modulo 256 and then the flag, from the values before either write; with `x` = 15
the flag stays (R116, R117, R119; the order of the two writes is the spec's decision D7). -/
def Obligations.AddAndSubtractSetTheFlagLast : Prop :=
  ∀ (x y : Nibble) (s : State),
    decode (formatXYN 0x8 x y 0x4) = .ok (.addReg x y) ∧ decode (formatXYN 0x8 x y 0x5) = .ok (.sub x y) ∧
    decode (formatXYN 0x8 x y 0x7) = .ok (.subn x y) ∧
    (∃ t, exec (.addReg x y) s = .next t ∧
      (t.getV 0xF).toNat = (if (s.getV x).toNat + (s.getV y).toNat > 255 then 1 else 0) ∧
      (x ≠ 0xF → (t.getV x).toNat = ((s.getV x).toNat + (s.getV y).toNat) % 256) ∧
      regsSameExcept [x, 0xF] s t ∧ onlyChanges [.V] s t) ∧
    (∃ t, exec (.sub x y) s = .next t ∧
      (t.getV 0xF).toNat = (if (s.getV x).toNat ≥ (s.getV y).toNat then 1 else 0) ∧
      (x ≠ 0xF → (t.getV x).toNat = (if (s.getV x).toNat ≥ (s.getV y).toNat
        then (s.getV x).toNat - (s.getV y).toNat else (s.getV x).toNat + 256 - (s.getV y).toNat)) ∧
      regsSameExcept [x, 0xF] s t ∧ onlyChanges [.V] s t) ∧
    (∃ t, exec (.subn x y) s = .next t ∧
      (t.getV 0xF).toNat = (if (s.getV y).toNat ≥ (s.getV x).toNat then 1 else 0) ∧
      (x ≠ 0xF → (t.getV x).toNat = (if (s.getV y).toNat ≥ (s.getV x).toNat
        then (s.getV y).toNat - (s.getV x).toNat else (s.getV y).toNat + 256 - (s.getV x).toNat)) ∧
      regsSameExcept [x, 0xF] s t ∧ onlyChanges [.V] s t)

/-- `8xy6`, `8xyE`: `Vx` is shifted in place by one and the flag is the bit shifted out; `y` is ignored; with `x` = 15
the flag stays (R118, R120, R76; the order of the two writes is the spec's decision D7). -/
def Obligations.ShiftsSendOneBitToTheFlag : Prop :=
  ∀ (x y : Nibble) (s : State),
    decode (formatXYN 0x8 x y 0x6) = .ok (.shr x y) ∧ decode (formatXYN 0x8 x y 0xE) = .ok (.shl x y) ∧
    (∃ t, exec (.shr x y) s = .next t ∧ (t.getV 0xF).toNat = (s.getV x).toNat % 2 ∧
      (x ≠ 0xF → (t.getV x).toNat = (s.getV x).toNat / 2) ∧
      regsSameExcept [x, 0xF] s t ∧ onlyChanges [.V] s t) ∧
    (∃ t, exec (.shl x y) s = .next t ∧ (t.getV 0xF).toNat = (s.getV x).toNat / 128 ∧
      (x ≠ 0xF → (t.getV x).toNat = (s.getV x).toNat * 2 % 256) ∧
      regsSameExcept [x, 0xF] s t ∧ onlyChanges [.V] s t) ∧
    (∀ y', exec (.shr x y) s = exec (.shr x y') s ∧ exec (.shl x y) s = exec (.shl x y') s)

/-- `Cxnn` completes for every random byte: `Vx` is the byte AND `nn`, exactly one byte is consumed, no flag (R121).
The byte is the first the host supplied, or a free value where it supplied none (the model's form, log entry 2). -/
def Obligations.RandomByteIsMasked : Prop :=
  ∀ (x : Nibble) (nn : Byte) (s : State), decode (formatXNN 0xC x nn) = .ok (.rnd x nn) ∧
    ∃ (r : Byte) (t : State), exec (.rnd x nn) s = .next t ∧
      (∀ b, (t.getV x).getLsbD b = (r.getLsbD b && nn.getLsbD b)) ∧
      (∀ r' rest, s.randIn = r' :: rest → r = r' ∧ t.randIn = rest) ∧
      (s.randIn = [] → t.randIn = []) ∧ t.randDraws = s.randDraws + 1 ∧
      regsSameExcept [x] s t ∧ onlyChanges [.V, .random] s t

/-! ### Index register and memory -/

/-- R130: `Annn` sets `I` to `nnn`, zero-extended. -/
def Obligations.LoadIndex : Prop :=
  ∀ (nnn : Addr12) (s : State), decode (formatNNN 0xA nnn) = .ok (.ldI nnn) ∧
    ∃ t, exec (.ldI nnn) s = .next t ∧ t.I.toNat = nnn.toNat ∧ onlyChanges [.I] s t

/-- `Fx1E` adds `Vx` to `I` modulo 65536 with no flag; `Fx29` sets `I` to 5 times the whole of `Vx` (R131, R132; the
wrap is the spec's decision D12, the whole `Vx` its decision D29). -/
def Obligations.IndexArithmetic : Prop :=
  ∀ (x : Nibble) (s : State),
    decode (formatXNN 0xF x 0x1E) = .ok (.addI x) ∧ decode (formatXNN 0xF x 0x29) = .ok (.ldF x) ∧
    (∃ t, exec (.addI x) s = .next t ∧ t.I.toNat = (s.I.toNat + (s.getV x).toNat) % 65536 ∧ onlyChanges [.I] s t) ∧
    (∃ t, exec (.ldF x) s = .next t ∧ t.I.toNat = (s.getV x).toNat * 5 ∧ onlyChanges [.I] s t)

/-- R133: `Fx33` stores the hundreds, tens and ones of `Vx` at `I`, `I + 1`, `I + 2` and changes no other byte; when
the range leaves memory it raises with `I + 2` and stores nothing. -/
def Obligations.DecimalDigitsAreStored : Prop :=
  ∀ (x : Nibble) (s : State), decode (formatXNN 0xF x 0x33) = .ok (.ldB x) ∧
    (s.mem.wf = true → s.I.toNat + 2 ≤ 4095 →
      ∃ t, exec (.ldB x) s = .next t ∧
        (t.mem.read s.I.toNat).toNat = (s.getV x).toNat / 100 ∧
        (t.mem.read (s.I.toNat + 1)).toNat = (s.getV x).toNat / 10 % 10 ∧
        (t.mem.read (s.I.toNat + 2)).toNat = (s.getV x).toNat % 10 ∧
        (∀ a, a < s.I.toNat ∨ s.I.toNat + 2 < a → t.mem.read a = s.mem.read a) ∧ t.mem.wf = true ∧
        onlyChanges [.mem] s t) ∧
    (4095 < s.I.toNat + 2 → exec (.ldB x) s = .fault (.memoryAccessError (s.I.toNat + 2) s))

/-- R134: `Fx55` stores `V0` to `Vx` at `I` to `I + x` and changes no other byte, nor `I`; when the range leaves memory
it raises with `I + x` and stores nothing. -/
def Obligations.RegistersAreStored : Prop :=
  ∀ (x : Nibble) (s : State), decode (formatXNN 0xF x 0x55) = .ok (.storeRegs x) ∧
    (s.mem.wf = true → s.I.toNat + x.toNat ≤ 4095 →
      ∃ t, exec (.storeRegs x) s = .next t ∧
        (∀ k, k.toNat ≤ x.toNat → t.mem.read (s.I.toNat + k.toNat) = s.getV k) ∧
        (∀ a, a < s.I.toNat ∨ s.I.toNat + x.toNat < a → t.mem.read a = s.mem.read a) ∧ t.mem.wf = true ∧
        onlyChanges [.mem] s t) ∧
    (4095 < s.I.toNat + x.toNat → exec (.storeRegs x) s = .fault (.memoryAccessError (s.I.toNat + x.toNat) s))

/-- R135: `Fx65` loads `V0` to `Vx` from `I` to `I + x`; the registers above `Vx`, memory and `I` keep their values;
when the range leaves memory it raises with `I + x` and loads nothing. -/
def Obligations.RegistersAreLoaded : Prop :=
  ∀ (x : Nibble) (s : State), decode (formatXNN 0xF x 0x65) = .ok (.loadRegs x) ∧
    (s.I.toNat + x.toNat ≤ 4095 →
      ∃ t, exec (.loadRegs x) s = .next t ∧
        (∀ k, k.toNat ≤ x.toNat → t.getV k = s.mem.read (s.I.toNat + k.toNat)) ∧
        (∀ k, x.toNat < k.toNat → t.getV k = s.getV k) ∧ onlyChanges [.V] s t) ∧
    (4095 < s.I.toNat + x.toNat → exec (.loadRegs x) s = .fault (.memoryAccessError (s.I.toNat + x.toNat) s))

/-- A store is seen by the very next fetch (spec/20_memory.md R65, spec/70_reset_and_hazards.md R217, which the spec
marks as derived). After an `Fx55` or an `Fx33` at `A` the next step fetches at `A + 2` and `A + 3`, each byte as just
stored where the instruction stores to it, be it both of them, one or none, and as before elsewhere. After a `load`
between two steps the next fetch reads the loaded bytes (that `load` may come between any two steps is the spec's
decision D21). -/
def Obligations.StoreIsSeenByTheNextFetch : Prop :=
  (∀ (s : State) (x : Nibble) (i : Instr), s.mem.wf = true → s.pc.toNat + 3 < 4096 → s.nextInstr = some i →
    (i = .storeRegs x ∧ s.I.toNat + x.toNat ≤ 4095) ∨ (i = .ldB x ∧ s.I.toNat + 2 ≤ 4095) →
    ∃ t hi lo, step s = .next t ∧ fetchesNext t hi lo ∧
      holdsAfter s (s.pc.toNat + 2) hi i ∧ holdsAfter s (s.pc.toNat + 3) lo i) ∧
  (∀ (s : State) (bytes : List Byte), s.mem.wf = true → s.status = .running → s.pc.toNat + 1 < 4096 →
    bytes.length ≤ 3584 →
    ∃ t hi lo, s.load bytes = .ok t ∧ fetchesNext t hi lo ∧
      holdsAfterLoad s bytes s.pc.toNat hi ∧ holdsAfterLoad s bytes (s.pc.toNat + 1) lo)

/-! ### Display -/

/-- R144, R141: `00E0` turns every pixel off and changes nothing else, `VF` included. -/
def Obligations.ClearTurnsEveryPixelOff : Prop :=
  decode 0x00E0#16 = .ok .cls ∧
  ∀ s : State, ∃ t, exec .cls s = .next t ∧ (∀ x y, t.disp.pixelAt x y = false) ∧ onlyChanges [.disp] s t

/-- R142: `plot` toggles the wrapped pixel if the bit is set, touches no other pixel, and reports a collision when the
pixel was on and the bit is set. -/
def Obligations.PlotTogglesTheWrappedPixel : Prop :=
  ∀ (d : Display) (x y : Nat) (bit : Bool) (cx : BitVec 6) (cy : BitVec 5),
    (cx.toNat = x % 64 ∧ cy.toNat = y % 32 →
      (d.plot x y bit).1.pixelAt cx cy = (d.pixelAt cx cy ^^ bit) ∧
      (d.plot x y bit).2 = (d.pixelAt cx cy && bit)) ∧
    (¬ (cx.toNat = x % 64 ∧ cy.toNat = y % 32) → (d.plot x y bit).1.pixelAt cx cy = d.pixelAt cx cy)

/-- `Dxyn` completes when its sprite lies in memory; then each pixel is its old value XOR the sprite bit that maps onto
it, wrapped per pixel, and besides the display only `VF` changes (R145, R147c; the whole-range check is the spec's
decision D4, the latching of the coordinates its decision D9). -/
def Obligations.DrawXorsTheSprite : Prop :=
  ∀ (x y n : Nibble) (s : State), decode (formatXYN 0xD x y n) = .ok (.drw x y n) ∧
    (n.toNat = 0 ∨ s.I.toNat + n.toNat - 1 ≤ 4095 →
      ∃ t, exec (.drw x y n) s = .next t ∧
        (∀ px py, (t.disp.pixelAt px py = true ↔
          ((s.disp.pixelAt px py = true ∧ ¬ spriteCovers s x y n px py) ∨
           (s.disp.pixelAt px py = false ∧ spriteCovers s x y n px py)))) ∧
        regsSameExcept [0xF] s t ∧ onlyChanges [.V, .disp] s t) ∧
    (1 ≤ n.toNat → 4095 < s.I.toNat + n.toNat - 1 →
      exec (.drw x y n) s = .fault (.memoryAccessError (s.I.toNat + n.toNat - 1) s))

/-- After `Dxyn`, `VF` is 1 exactly when some set sprite bit landed on a pixel that was on before the instruction, and
0 otherwise (R145, R147a, which the spec marks as derived). -/
def Obligations.DrawSetsTheCollisionFlag : Prop :=
  ∀ (x y n : Nibble) (s t : State), exec (.drw x y n) s = .next t →
    ((t.getV 0xF).toNat = 1 ↔ ∃ px py, spriteCovers s x y n px py ∧ s.disp.pixelAt px py = true) ∧
    ((t.getV 0xF).toNat = 0 ↔ ¬ ∃ px py, spriteCovers s x y n px py ∧ s.disp.pixelAt px py = true)

/-- Drawing the same sprite twice at the same place restores the display, and the second draw reports a collision
exactly when a set sprite bit landed on an off pixel the first time (R147b, which the spec marks as derived). The
coordinates must not be `VF`, which the first draw overwrites. Nothing but `VF` and `pc` differs after both steps. -/
def Obligations.DrawTwiceRestoresTheDisplay : Prop :=
  ∀ (s t : State) (x y n : Nibble), x ≠ 0xF → y ≠ 0xF →
    s.nextInstr = some (.drw x y n) → step s = .next t → t.nextInstr = some (.drw x y n) →
    ∃ u, step t = .next u ∧ (∀ px py, u.disp.pixelAt px py = s.disp.pixelAt px py) ∧
      ((u.getV 0xF).toNat = 1 ↔ ∃ px py, spriteCovers s x y n px py ∧ s.disp.pixelAt px py = false) ∧
      regsSameExcept [0xF] s u ∧ onlyChanges [.V, .pc] s u

/-- `Dxy0` draws nothing and clears `VF`, whatever `I` holds (R146; the spec's decision D8). -/
def Obligations.DrawOfZeroRowsOnlyClearsTheFlag : Prop :=
  ∀ (x y : Nibble) (s : State),
    ∃ t, exec (.drw x y 0) s = .next t ∧ t.getV 0xF = 0 ∧ regsSameExcept [0xF] s t ∧ onlyChanges [.V] s t

/-! ### Keyboard and timers -/

/-- `Ex9E` skips when the key named by the low four bits of `Vx` is pressed, `ExA1` when it is not (R154, R155; that
the low four bits name the key is the spec's decision D10). -/
def Obligations.SkipOnKey : Prop :=
  ∀ (x k : Nibble) (s : State), k.toNat = (s.getV x).toNat % 16 →
    decode (formatXNN 0xE x 0x9E) = .ok (.skp x) ∧ decode (formatXNN 0xE x 0xA1) = .ok (.sknp x) ∧
    (∃ t, exec (.skp x) s = .next t ∧
      t.pc = (if KeyLatch.isPressed s.key k = true then s.pc + 2 else s.pc) ∧ onlyChanges [.pc] s t) ∧
    (∃ t, exec (.sknp x) s = .next t ∧
      t.pc = (if KeyLatch.isPressed s.key k = true then s.pc else s.pc + 2) ∧ onlyChanges [.pc] s t)

/-- `Fx0A` only enters the wait, whatever keys are pressed; and while no key is pressed the steps after it change
nothing, until the step that finds one stores it and runs again (R157, R158; the spec's decision D11). -/
def Obligations.KeyInstructionEntersTheWait : Prop :=
  (∀ (x : Nibble) (s : State), decode (formatXNN 0xF x 0x0A) = .ok (.ldVxK x) ∧
    ∃ t, exec (.ldVxK x) s = .next t ∧ t.status = .awaitingKey x ∧ onlyChanges [.status] s t) ∧
  (∀ (x : Nibble) (s t : State), s.nextInstr = some (.ldVxK x) → step s = .next t →
    ((∀ k, KeyLatch.isPressed s.key k = false) → step t = .next t) ∧
    (∀ k, KeyLatch.lowestPressed s.key = some k →
      ∃ u, step t = .next u ∧ (u.getV x).toNat = k.toNat ∧ u.pc.toNat = s.pc.toNat + 2 ∧
        regsSameExcept [x] s u ∧ onlyChanges [.V, .pc] s u))

/-- R160, R161 and the effect R162 gives `Fx18`: `Fx07` reads the delay timer, `Fx15` writes it, `Fx18` writes the
sound timer; nothing else changes. -/
def Obligations.TimerInstructions : Prop :=
  ∀ (x : Nibble) (s : State),
    decode (formatXNN 0xF x 0x07) = .ok (.ldVxDT x) ∧ decode (formatXNN 0xF x 0x15) = .ok (.ldDTVx x) ∧
    decode (formatXNN 0xF x 0x18) = .ok (.ldSTVx x) ∧
    (∃ t, exec (.ldVxDT x) s = .next t ∧ t.getV x = s.DT ∧ regsSameExcept [x] s t ∧ onlyChanges [.V] s t) ∧
    (∃ t, exec (.ldDTVx x) s = .next t ∧ t.DT = s.getV x ∧ onlyChanges [.DT] s t) ∧
    (∃ t, exec (.ldSTVx x) s = .next t ∧ t.ST = s.getV x ∧ onlyChanges [.ST] s t)

/-! ### The host's operations and reset -/

/-- `load` copies an image of at most 3584 bytes to 0x200 and changes nothing else; a longer one is rejected whole
(R167; that it writes memory only is the spec's decision D21). -/
def Obligations.LoadIsAllOrNothing : Prop :=
  ∀ (s : State) (bytes : List Byte),
    (s.mem.wf = true → bytes.length ≤ 3584 →
      ∃ t, s.load bytes = .ok t ∧
        (∀ (k : Nat) (h : k < bytes.length), t.mem.read (0x200 + k) = bytes[k]) ∧
        (∀ a, a < 0x200 ∨ 0x200 + bytes.length ≤ a → t.mem.read a = s.mem.read a) ∧
        t.mem.wf = true ∧ onlyChanges [.mem] s t) ∧
    (3584 < bytes.length → s.load bytes = .error .imageTooLong ∧ (Event.load bytes).act s = s)

/-- One timer tick lowers each timer by one and leaves one that is 0 at 0; nothing else changes (R172; the spec's
decision D18). -/
def Obligations.TimerTickCountsDownToZero : Prop :=
  ∀ s : State, s.timerTick.DT.toNat = s.DT.toNat - 1 ∧ s.timerTick.ST.toNat = s.ST.toNat - 1 ∧
    onlyChanges [.DT, .ST] s s.timerTick

/-- R169: `set_key` sets one key level, in any state, with no immediate effect on the engine; and no other event but
reset changes a key. -/
def Obligations.KeysChangeOnlyBySetKey : Prop :=
  (∀ (s : State) (k : Nibble) (p : Bool),
    KeyLatch.isPressed ((Event.setKey k p).act s).key k = p ∧
    (∀ j, j ≠ k → KeyLatch.isPressed ((Event.setKey k p).act s).key j = KeyLatch.isPressed s.key j) ∧
    onlyChanges [.key] s ((Event.setKey k p).act s)) ∧
  (∀ (s : State) (e : Event), (∀ k p, e ≠ .setKey k p) → e ≠ .reset →
    ∀ k, KeyLatch.isPressed (e.act s).key k = KeyLatch.isPressed s.key k)

/-- Reset puts every component to its reset value, from ANY state and under any parameters: `pc` = 0x200; and, by the
spec's decisions D15 and D16 (log entries 4 and 5), registers, `I` and timers 0, `Running`, the stack empty, memory
`MEM_INIT`, every pixel off and every key released (R38, R166, R210). The operation keeps the parameters (R36) and the
random input (the model's choice, log entry 11). `State.reset` is that state under the default parameters of R7, whose
memory is all 0 (log entry 3). -/
def Obligations.ResetValues : Prop :=
  (∀ s : State, atReset (Event.reset.act s) ∧ samePart s (Event.reset.act s) .params ∧
    samePart s (Event.reset.act s) .random) ∧
  (∀ p : Params, atReset (State.resetWith p) ∧ (State.resetWith p).params = p) ∧
  atReset State.reset ∧ State.reset.params.stackDepth = none ∧ State.reset.params.strictUnknown = false ∧
  (∀ a, State.reset.mem.read a = 0)

/-- R213: after reset and a load, the first step fetches `mem[0x200]` and `mem[0x201]`, the first two bytes of the
image. -/
def Obligations.FirstStepFetchesAtTheEntryPoint : Prop :=
  (∀ s : State, s.resetOp.pc = 0x200 ∧
    s.resetOp.nextWord = some (wordOfBytes (s.resetOp.mem.read 0x200) (s.resetOp.mem.read 0x201))) ∧
  (∀ (s : State) (b0 b1 : Byte) (rest : List Byte), s.params.memInit.wf = true → rest.length + 2 ≤ 3584 →
    ∃ t, s.resetOp.load (b0 :: b1 :: rest) = .ok t ∧ t.nextWord = some (wordOfBytes b0 b1))
end

