-- ==== Sys2Proof/Laws/Decode.lean ====
section
/-! SUPPORT. The fields of the formats, the formats of the fields, and the bytes of a word. -/

namespace Sys2Proof

/-! ### The fields of a format -/

section
variable {m k : Nat} (a : BitVec m) (b : BitVec k)

/-- A field above the low part of an append is a field of the high part. -/
theorem extract_append_hi (j l : Nat) : BitVec.extractLsb' (k + j) l (a ++ b) = a.extractLsb' j l := by
  ext i hi
  simp [BitVec.getLsbD_append, Nat.add_assoc]

/-- A field inside the low part of an append is a field of the low part. -/
theorem extract_append_lo (j l : Nat) (h : j + l ≤ k) :
    BitVec.extractLsb' j l (a ++ b) = b.extractLsb' j l := by
  ext i hi
  simp [BitVec.getLsbD_append, show j + i < k by omega]

theorem extract_all : BitVec.extractLsb' 0 m a = a := by
  ext i hi
  simp

end

section
variable (c x y n : Nibble) (nn : Byte) (nnn : Addr12)

@[simp] theorem fieldClass_formatNNN : fieldClass (formatNNN c nnn) = c :=
  (extract_append_hi c nnn 0 4).trans (extract_all c)

@[simp] theorem fieldNNN_formatNNN : fieldNNN (formatNNN c nnn) = nnn :=
  (extract_append_lo c nnn 0 12 (by decide)).trans (extract_all nnn)

@[simp] theorem fieldClass_formatXNN : fieldClass (formatXNN c x nn) = c :=
  ((extract_append_hi (c ++ x) nn 4 4).trans (extract_append_hi c x 0 4)).trans (extract_all c)

@[simp] theorem fieldX_formatXNN : fieldX (formatXNN c x nn) = x :=
  ((extract_append_hi (c ++ x) nn 0 4).trans (extract_append_lo c x 0 4 (by decide))).trans (extract_all x)

@[simp] theorem fieldNN_formatXNN : fieldNN (formatXNN c x nn) = nn :=
  (extract_append_lo (c ++ x) nn 0 8 (by decide)).trans (extract_all nn)

@[simp] theorem fieldClass_formatXYN : fieldClass (formatXYN c x y n) = c :=
  (((extract_append_hi (c ++ x ++ y) n 8 4).trans (extract_append_hi (c ++ x) y 4 4)).trans
    (extract_append_hi c x 0 4)).trans (extract_all c)

@[simp] theorem fieldX_formatXYN : fieldX (formatXYN c x y n) = x :=
  (((extract_append_hi (c ++ x ++ y) n 4 4).trans (extract_append_hi (c ++ x) y 0 4)).trans
    (extract_append_lo c x 0 4 (by decide))).trans (extract_all x)

@[simp] theorem fieldY_formatXYN : fieldY (formatXYN c x y n) = y :=
  ((extract_append_hi (c ++ x ++ y) n 0 4).trans (extract_append_lo (c ++ x) y 0 4 (by decide))).trans (extract_all y)

@[simp] theorem fieldN_formatXYN : fieldN (formatXYN c x y n) = n :=
  (extract_append_lo (c ++ x ++ y) n 0 4 (by decide)).trans (extract_all n)

end

/-! ### A word is each format of its fields -/

theorem formatNNN_fields (w : Word) : formatNNN (fieldClass w) (fieldNNN w) = w := by
  unfold formatNNN fieldClass fieldNNN
  ext i hi
  simp only [BitVec.getElem_append, BitVec.getElem_extractLsb']
  split <;> (rw [← BitVec.getLsbD_eq_getElem]; congr 1; omega)

theorem formatXNN_fields (w : Word) : formatXNN (fieldClass w) (fieldX w) (fieldNN w) = w := by
  unfold formatXNN fieldClass fieldX fieldNN
  ext i hi
  simp only [BitVec.getElem_append, BitVec.getElem_extractLsb']
  split_ifs <;> (rw [← BitVec.getLsbD_eq_getElem]; congr 1; omega)

theorem formatXYN_fields (w : Word) : formatXYN (fieldClass w) (fieldX w) (fieldY w) (fieldN w) = w := by
  unfold formatXYN fieldClass fieldX fieldY fieldN
  ext i hi
  simp only [BitVec.getElem_append, BitVec.getElem_extractLsb']
  split_ifs <;> (rw [← BitVec.getLsbD_eq_getElem]; congr 1; omega)

/-! ### Bytes -/

@[simp] theorem bytesOfWord_length (w : Word) : (bytesOfWord w).length = 2 := rfl

theorem wordOfBytes_bytes (w : Word) : wordOfBytes (w.extractLsb' 8 8) (w.extractLsb' 0 8) = w := by
  unfold wordOfBytes
  ext i hi
  simp only [BitVec.getElem_append, BitVec.getElem_extractLsb']
  split <;> (rw [← BitVec.getLsbD_eq_getElem]; congr 1; omega)

theorem wordOfBytes_toNat (hi lo : Byte) : (wordOfBytes hi lo).toNat = hi.toNat * 256 + lo.toNat := by
  have := lo.isLt
  simp only [wordOfBytes, BitVec.toNat_append]
  rw [Nat.shiftLeft_eq, Nat.mul_comm, ← Nat.two_pow_add_eq_or_of_lt this, Nat.mul_comm]

theorem decodeBytes_bytesOfWord (w : Word) (rest : List Byte) :
    decodeBytes (bytesOfWord w ++ rest) =
      match decode w with
      | .ok i => .ok (i, rest)
      | .error e => .error e := by
  simp only [bytesOfWord, List.cons_append, List.nil_append, decodeBytes]
  rw [wordOfBytes_bytes] <;> rfl

end Sys2Proof
end

