-- ==== Sys2Proof/Laws/DisplayUnit.lean ====
section
/-! SUPPORT. What the compositor does to one pixel: one plot, one sprite byte, one sprite (spec/44_display.md
R142, R145, R147). Pixels are read through `Display.wrapped`. -/

namespace Sys2Proof.Machine

/-- Two coordinate pairs wrap to the same pixel (R142). -/
abbrev samePixel (x y x' y' : Nat) : Prop := x % 64 = x' % 64 ∧ y % 32 = y' % 32

theorem wrapped_congr (d : Display) {x y x' y' : Nat} (h : samePixel x y x' y') : d.wrapped x y = d.wrapped x' y' := by
  obtain ⟨h1, h2⟩ := h
  simp only [Display.wrapped, h1, h2]

theorem pixelAt_eq_wrapped (d : Display) (x : BitVec 6) (y : BitVec 5) :
    d.pixelAt x y = d.wrapped x.toNat y.toNat := by
  have hx : x.toNat % 64 = x.toNat := Nat.mod_eq_of_lt x.isLt
  have hy : y.toNat % 32 = y.toNat := Nat.mod_eq_of_lt y.isLt
  simp only [Display.wrapped, Display.pixelAt, hx, hy]

theorem wrapped_clear (x y : Nat) : Display.clear.wrapped x y = false := by
  simp [Display.wrapped, Display.clear]

theorem wrapped_put (d : Display) (x y x' y' : Nat) (p : Bool) :
    (d.put x y p).wrapped x' y' = if samePixel x y x' y' then p else d.wrapped x' y' := by
  unfold Display.put Display.wrapped
  simp only [Vector.getElem_set]
  by_cases hx : x % 64 = x' % 64
  · simp only [hx, if_true, Vector.getElem_set, samePixel, true_and]
  · simp [hx]

/-- One sprite bit toggles its own pixel and no other. -/
theorem drawBit_wrapped (c : Canvas) (x y x' y' : Nat) (bit : Bool) :
    (c.drawBit x y bit).disp.wrapped x' y' = (c.disp.wrapped x' y' ^^ (bit && decide (samePixel x y x' y'))) := by
  cases bit with
  | false => simp [Canvas.drawBit]
  | true =>
    simp only [Canvas.drawBit, if_true, Display.plot, wrapped_put]
    by_cases h : samePixel x y x' y'
    · rw [if_pos h, wrapped_congr _ h]; simp [h]
    · rw [if_neg h]; simp [h]

theorem drawBit_hit (c : Canvas) (x y : Nat) (bit : Bool) :
    (c.drawBit x y bit).hit = (c.hit || (bit && c.disp.wrapped x y)) := by
  cases bit <;> simp [Canvas.drawBit, Display.plot]

/-- The set bits of a sprite byte among its first `cols` columns that land on a pixel. -/
abbrev byteHits (b : Byte) (x0 y cols x' y' : Nat) : Prop :=
  ∃ col < cols, spriteBit b col = true ∧ samePixel (x0 + col) y x' y'

theorem drawCols_wrapped (c : Canvas) (x0 y : Nat) (b : Byte) (x' y' : Nat) (cols : Nat) (hc : cols ≤ 64) :
    (c.drawCols x0 y b cols).disp.wrapped x' y' =
      (c.disp.wrapped x' y' ^^ decide (byteHits b x0 y cols x' y')) := by
  induction cols with
  | zero => simp [Canvas.drawCols, byteHits]
  | succ k ih =>
    rw [Canvas.drawCols, drawBit_wrapped, ih (by omega), Bool.xor_assoc]
    congr 1
    by_cases h : samePixel (x0 + k) y x' y'
    · have hno : ¬ byteHits b x0 y k x' y' := by
        rintro ⟨col, h1, -, h2, -⟩
        have := h.1
        omega
      have hiff : byteHits b x0 y (k + 1) x' y' ↔ spriteBit b k = true := by
        constructor
        · rintro ⟨col, h1, h2, h3, -⟩
          have := h.1
          rw [show k = col by omega]
          exact h2
        · exact fun h' => ⟨k, by omega, h', h⟩
      simp [hno, hiff, h]
    · have hiff : byteHits b x0 y (k + 1) x' y' ↔ byteHits b x0 y k x' y' := by
        constructor
        · rintro ⟨col, h1, h2, h3⟩
          refine ⟨col, ?_, h2, h3⟩
          rcases Nat.lt_succ_iff_lt_or_eq.1 h1 with h4 | h4
          · exact h4
          · exact absurd (h4 ▸ h3) h
        · rintro ⟨col, h1, h2, h3⟩
          exact ⟨col, by omega, h2, h3⟩
      simp [hiff, h]

/-- A set bit among the first `cols` columns of a sprite byte lands on a pixel that is on. -/
abbrev byteCollides (d : Display) (b : Byte) (x0 y cols : Nat) : Prop :=
  ∃ col < cols, spriteBit b col = true ∧ d.wrapped (x0 + col) y = true

theorem drawCols_hit (c : Canvas) (x0 y : Nat) (b : Byte) (cols : Nat) (hc : cols ≤ 64) :
    (c.drawCols x0 y b cols).hit =
      (c.hit || decide (byteCollides c.disp b x0 y cols)) := by
  induction cols with
  | zero => simp [Canvas.drawCols, byteCollides]
  | succ k ih =>
    rw [Canvas.drawCols, drawBit_hit, ih (by omega), drawCols_wrapped _ _ _ _ _ _ _ (by omega), Bool.or_assoc]
    congr 1
    have hno : ¬ byteHits b x0 y k (x0 + k) y := by
      rintro ⟨col, h1, -, h2, -⟩
      omega
    rw [decide_eq_false hno, Bool.xor_false, ← Bool.decide_eq_true (b := spriteBit b k && _), ← Bool.decide_or]
    apply decide_eq_decide.2
    constructor
    · rintro (⟨col, h1, h2⟩ | h)
      · exact ⟨col, by omega, h2⟩
      · exact ⟨k, by omega, by simpa using h⟩
    · rintro ⟨col, h1, h2⟩
      rcases Nat.lt_succ_iff_lt_or_eq.1 h1 with h4 | h4
      · exact .inl ⟨col, h4, h2⟩
      · subst h4; exact .inr (by simpa using h2)

/-- The set bits of the first `rows` rows of a sprite that land on a pixel (R147c). -/
abbrev spriteHits (m : Memory) (base x0 y0 rows x' y' : Nat) : Prop :=
  ∃ row < rows, byteHits (m.read (base + row)) x0 (y0 + row) 8 x' y'

/-- After the first `rows` rows each pixel is its old value XOR the sprite bit that maps onto it (R147c). -/
theorem drawRows_wrapped (c : Canvas) (m : Memory) (base x0 y0 x' y' : Nat) (rows : Nat) (hr : rows ≤ 32) :
    (c.drawRows m base x0 y0 rows).disp.wrapped x' y' =
      (c.disp.wrapped x' y' ^^ decide (spriteHits m base x0 y0 rows x' y')) := by
  induction rows with
  | zero => simp [Canvas.drawRows, spriteHits]
  | succ k ih =>
    rw [Canvas.drawRows, drawCols_wrapped _ _ _ _ _ _ _ (by omega), ih (by omega), Bool.xor_assoc]
    congr 1
    by_cases h : byteHits (m.read (base + k)) x0 (y0 + k) 8 x' y'
    · have hno : ¬ spriteHits m base x0 y0 k x' y' := by
        rintro ⟨row, h1, col, -, -, -, h2⟩
        obtain ⟨_, _, _, _, h3⟩ := h
        omega
      have hyes : spriteHits m base x0 y0 (k + 1) x' y' := ⟨k, by omega, h⟩
      rw [decide_eq_true h, decide_eq_false hno, decide_eq_true hyes]; rfl
    · have hiff : spriteHits m base x0 y0 (k + 1) x' y' ↔ spriteHits m base x0 y0 k x' y' := by
        constructor
        · rintro ⟨row, h1, h2⟩
          refine ⟨row, ?_, h2⟩
          rcases Nat.lt_succ_iff_lt_or_eq.1 h1 with h4 | h4
          · exact h4
          · exact absurd (h4 ▸ h2) h
        · rintro ⟨row, h1, h2⟩
          exact ⟨row, by omega, h2⟩
      rw [decide_eq_false h, Bool.xor_false, decide_eq_decide.2 hiff]

/-- A set bit among the first `rows` rows of a sprite lands on a pixel that is on. -/
abbrev spriteCollides (d : Display) (m : Memory) (base x0 y0 rows : Nat) : Prop :=
  ∃ row < rows, byteCollides d (m.read (base + row)) x0 (y0 + row) 8

/-- A draw collides exactly when some set sprite bit lands on a pixel that was on before the draw (R147a). -/
theorem drawRows_hit (c : Canvas) (m : Memory) (base x0 y0 : Nat) (rows : Nat) (hr : rows ≤ 32) :
    (c.drawRows m base x0 y0 rows).hit = (c.hit || decide (spriteCollides c.disp m base x0 y0 rows)) := by
  induction rows with
  | zero => simp [Canvas.drawRows, spriteCollides]
  | succ k ih =>
    rw [Canvas.drawRows, drawCols_hit _ _ _ _ _ (by omega), ih (by omega), Bool.or_assoc]
    congr 1
    rw [← Bool.decide_or]
    apply decide_eq_decide.2
    have hsame : ∀ x', (c.drawRows m base x0 y0 k).disp.wrapped x' (y0 + k) = c.disp.wrapped x' (y0 + k) := by
      intro x'
      have hno : ¬ spriteHits m base x0 y0 k x' (y0 + k) := by
        rintro ⟨row, h1, col, -, -, -, h2⟩
        omega
      rw [drawRows_wrapped _ _ _ _ _ _ _ _ (by omega), decide_eq_false hno, Bool.xor_false]
    simp only [byteCollides, hsame]
    constructor
    · rintro (⟨row, h1, h2⟩ | h)
      · exact ⟨row, by omega, h2⟩
      · exact ⟨k, by omega, h⟩
    · rintro ⟨row, h1, h2⟩
      rcases Nat.lt_succ_iff_lt_or_eq.1 h1 with h4 | h4
      · exact .inl ⟨row, h4, h2⟩
      · subst h4; exact .inr h2

/-- Two displays whose pixels agree are the same display. -/
theorem display_ext {d d' : Display} (h : ∀ x y, d.wrapped x y = d'.wrapped x y) : d = d' := by
  apply Vector.ext
  intro i hi
  apply Vector.ext
  intro j hj
  have := h i j
  simpa only [Display.wrapped, Nat.mod_eq_of_lt hi, Nat.mod_eq_of_lt hj] using this

end Sys2Proof.Machine
end

