-- ==== Sys2Proof/Laws/State.lean ====
section
/-! SUPPORT. One lemma per field per update of State, true by unfolding, so that no later proof unfolds a record
update. -/

namespace Sys2Proof.Machine

variable (s : State)

/-! ### setV -/

@[simp] theorem setV_V (x : Nibble) (b : Byte) : (s.setV x b).V = s.V.set x.toNat b x.isLt := rfl
@[simp] theorem setV_pc (x : Nibble) (b : Byte) : (s.setV x b).pc = s.pc := rfl
@[simp] theorem setV_I (x : Nibble) (b : Byte) : (s.setV x b).I = s.I := rfl
@[simp] theorem setV_DT (x : Nibble) (b : Byte) : (s.setV x b).DT = s.DT := rfl
@[simp] theorem setV_ST (x : Nibble) (b : Byte) : (s.setV x b).ST = s.ST := rfl
@[simp] theorem setV_status (x : Nibble) (b : Byte) : (s.setV x b).status = s.status := rfl
@[simp] theorem setV_stack (x : Nibble) (b : Byte) : (s.setV x b).stack = s.stack := rfl
@[simp] theorem setV_mem (x : Nibble) (b : Byte) : (s.setV x b).mem = s.mem := rfl
@[simp] theorem setV_disp (x : Nibble) (b : Byte) : (s.setV x b).disp = s.disp := rfl
@[simp] theorem setV_key (x : Nibble) (b : Byte) : (s.setV x b).key = s.key := rfl
@[simp] theorem setV_randIn (x : Nibble) (b : Byte) : (s.setV x b).randIn = s.randIn := rfl
@[simp] theorem setV_randDraws (x : Nibble) (b : Byte) : (s.setV x b).randDraws = s.randDraws := rfl
@[simp] theorem setV_params (x : Nibble) (b : Byte) : (s.setV x b).params = s.params := rfl

/-! ### setPc -/

@[simp] theorem setPc_V (w : Word) : (s.setPc w).V = s.V := rfl
@[simp] theorem setPc_pc (w : Word) : (s.setPc w).pc = w := rfl
@[simp] theorem setPc_I (w : Word) : (s.setPc w).I = s.I := rfl
@[simp] theorem setPc_DT (w : Word) : (s.setPc w).DT = s.DT := rfl
@[simp] theorem setPc_ST (w : Word) : (s.setPc w).ST = s.ST := rfl
@[simp] theorem setPc_status (w : Word) : (s.setPc w).status = s.status := rfl
@[simp] theorem setPc_stack (w : Word) : (s.setPc w).stack = s.stack := rfl
@[simp] theorem setPc_mem (w : Word) : (s.setPc w).mem = s.mem := rfl
@[simp] theorem setPc_disp (w : Word) : (s.setPc w).disp = s.disp := rfl
@[simp] theorem setPc_key (w : Word) : (s.setPc w).key = s.key := rfl
@[simp] theorem setPc_randIn (w : Word) : (s.setPc w).randIn = s.randIn := rfl
@[simp] theorem setPc_randDraws (w : Word) : (s.setPc w).randDraws = s.randDraws := rfl
@[simp] theorem setPc_params (w : Word) : (s.setPc w).params = s.params := rfl

/-! ### setI -/

@[simp] theorem setI_V (w : Word) : (s.setI w).V = s.V := rfl
@[simp] theorem setI_pc (w : Word) : (s.setI w).pc = s.pc := rfl
@[simp] theorem setI_I (w : Word) : (s.setI w).I = w := rfl
@[simp] theorem setI_DT (w : Word) : (s.setI w).DT = s.DT := rfl
@[simp] theorem setI_ST (w : Word) : (s.setI w).ST = s.ST := rfl
@[simp] theorem setI_status (w : Word) : (s.setI w).status = s.status := rfl
@[simp] theorem setI_stack (w : Word) : (s.setI w).stack = s.stack := rfl
@[simp] theorem setI_mem (w : Word) : (s.setI w).mem = s.mem := rfl
@[simp] theorem setI_disp (w : Word) : (s.setI w).disp = s.disp := rfl
@[simp] theorem setI_key (w : Word) : (s.setI w).key = s.key := rfl
@[simp] theorem setI_randIn (w : Word) : (s.setI w).randIn = s.randIn := rfl
@[simp] theorem setI_randDraws (w : Word) : (s.setI w).randDraws = s.randDraws := rfl
@[simp] theorem setI_params (w : Word) : (s.setI w).params = s.params := rfl

/-! ### setDT -/

@[simp] theorem setDT_V (b : Byte) : (s.setDT b).V = s.V := rfl
@[simp] theorem setDT_pc (b : Byte) : (s.setDT b).pc = s.pc := rfl
@[simp] theorem setDT_I (b : Byte) : (s.setDT b).I = s.I := rfl
@[simp] theorem setDT_DT (b : Byte) : (s.setDT b).DT = b := rfl
@[simp] theorem setDT_ST (b : Byte) : (s.setDT b).ST = s.ST := rfl
@[simp] theorem setDT_status (b : Byte) : (s.setDT b).status = s.status := rfl
@[simp] theorem setDT_stack (b : Byte) : (s.setDT b).stack = s.stack := rfl
@[simp] theorem setDT_mem (b : Byte) : (s.setDT b).mem = s.mem := rfl
@[simp] theorem setDT_disp (b : Byte) : (s.setDT b).disp = s.disp := rfl
@[simp] theorem setDT_key (b : Byte) : (s.setDT b).key = s.key := rfl
@[simp] theorem setDT_randIn (b : Byte) : (s.setDT b).randIn = s.randIn := rfl
@[simp] theorem setDT_randDraws (b : Byte) : (s.setDT b).randDraws = s.randDraws := rfl
@[simp] theorem setDT_params (b : Byte) : (s.setDT b).params = s.params := rfl

/-! ### setST -/

@[simp] theorem setST_V (b : Byte) : (s.setST b).V = s.V := rfl
@[simp] theorem setST_pc (b : Byte) : (s.setST b).pc = s.pc := rfl
@[simp] theorem setST_I (b : Byte) : (s.setST b).I = s.I := rfl
@[simp] theorem setST_DT (b : Byte) : (s.setST b).DT = s.DT := rfl
@[simp] theorem setST_ST (b : Byte) : (s.setST b).ST = b := rfl
@[simp] theorem setST_status (b : Byte) : (s.setST b).status = s.status := rfl
@[simp] theorem setST_stack (b : Byte) : (s.setST b).stack = s.stack := rfl
@[simp] theorem setST_mem (b : Byte) : (s.setST b).mem = s.mem := rfl
@[simp] theorem setST_disp (b : Byte) : (s.setST b).disp = s.disp := rfl
@[simp] theorem setST_key (b : Byte) : (s.setST b).key = s.key := rfl
@[simp] theorem setST_randIn (b : Byte) : (s.setST b).randIn = s.randIn := rfl
@[simp] theorem setST_randDraws (b : Byte) : (s.setST b).randDraws = s.randDraws := rfl
@[simp] theorem setST_params (b : Byte) : (s.setST b).params = s.params := rfl

/-! ### setStatus -/

@[simp] theorem setStatus_V (st : Status) : (s.setStatus st).V = s.V := rfl
@[simp] theorem setStatus_pc (st : Status) : (s.setStatus st).pc = s.pc := rfl
@[simp] theorem setStatus_I (st : Status) : (s.setStatus st).I = s.I := rfl
@[simp] theorem setStatus_DT (st : Status) : (s.setStatus st).DT = s.DT := rfl
@[simp] theorem setStatus_ST (st : Status) : (s.setStatus st).ST = s.ST := rfl
@[simp] theorem setStatus_status (st : Status) : (s.setStatus st).status = st := rfl
@[simp] theorem setStatus_stack (st : Status) : (s.setStatus st).stack = s.stack := rfl
@[simp] theorem setStatus_mem (st : Status) : (s.setStatus st).mem = s.mem := rfl
@[simp] theorem setStatus_disp (st : Status) : (s.setStatus st).disp = s.disp := rfl
@[simp] theorem setStatus_key (st : Status) : (s.setStatus st).key = s.key := rfl
@[simp] theorem setStatus_randIn (st : Status) : (s.setStatus st).randIn = s.randIn := rfl
@[simp] theorem setStatus_randDraws (st : Status) : (s.setStatus st).randDraws = s.randDraws := rfl
@[simp] theorem setStatus_params (st : Status) : (s.setStatus st).params = s.params := rfl

/-! ### store -/

@[simp] theorem store_V (a : Nat) (bs : List Byte) : (s.store a bs).V = s.V := rfl
@[simp] theorem store_pc (a : Nat) (bs : List Byte) : (s.store a bs).pc = s.pc := rfl
@[simp] theorem store_I (a : Nat) (bs : List Byte) : (s.store a bs).I = s.I := rfl
@[simp] theorem store_DT (a : Nat) (bs : List Byte) : (s.store a bs).DT = s.DT := rfl
@[simp] theorem store_ST (a : Nat) (bs : List Byte) : (s.store a bs).ST = s.ST := rfl
@[simp] theorem store_status (a : Nat) (bs : List Byte) : (s.store a bs).status = s.status := rfl
@[simp] theorem store_stack (a : Nat) (bs : List Byte) : (s.store a bs).stack = s.stack := rfl
@[simp] theorem store_mem (a : Nat) (bs : List Byte) : (s.store a bs).mem = s.mem.storeBytes a bs := rfl
@[simp] theorem store_disp (a : Nat) (bs : List Byte) : (s.store a bs).disp = s.disp := rfl
@[simp] theorem store_key (a : Nat) (bs : List Byte) : (s.store a bs).key = s.key := rfl
@[simp] theorem store_randIn (a : Nat) (bs : List Byte) : (s.store a bs).randIn = s.randIn := rfl
@[simp] theorem store_randDraws (a : Nat) (bs : List Byte) : (s.store a bs).randDraws = s.randDraws := rfl
@[simp] theorem store_params (a : Nat) (bs : List Byte) : (s.store a bs).params = s.params := rfl

/-! ### setDisp -/

@[simp] theorem setDisp_V (d : Display) : (s.setDisp d).V = s.V := rfl
@[simp] theorem setDisp_pc (d : Display) : (s.setDisp d).pc = s.pc := rfl
@[simp] theorem setDisp_I (d : Display) : (s.setDisp d).I = s.I := rfl
@[simp] theorem setDisp_DT (d : Display) : (s.setDisp d).DT = s.DT := rfl
@[simp] theorem setDisp_ST (d : Display) : (s.setDisp d).ST = s.ST := rfl
@[simp] theorem setDisp_status (d : Display) : (s.setDisp d).status = s.status := rfl
@[simp] theorem setDisp_stack (d : Display) : (s.setDisp d).stack = s.stack := rfl
@[simp] theorem setDisp_mem (d : Display) : (s.setDisp d).mem = s.mem := rfl
@[simp] theorem setDisp_disp (d : Display) : (s.setDisp d).disp = d := rfl
@[simp] theorem setDisp_key (d : Display) : (s.setDisp d).key = s.key := rfl
@[simp] theorem setDisp_randIn (d : Display) : (s.setDisp d).randIn = s.randIn := rfl
@[simp] theorem setDisp_randDraws (d : Display) : (s.setDisp d).randDraws = s.randDraws := rfl
@[simp] theorem setDisp_params (d : Display) : (s.setDisp d).params = s.params := rfl

/-! ### push -/

@[simp] theorem push_V (w : Word) : (s.push w).V = s.V := rfl
@[simp] theorem push_pc (w : Word) : (s.push w).pc = s.pc := rfl
@[simp] theorem push_I (w : Word) : (s.push w).I = s.I := rfl
@[simp] theorem push_DT (w : Word) : (s.push w).DT = s.DT := rfl
@[simp] theorem push_ST (w : Word) : (s.push w).ST = s.ST := rfl
@[simp] theorem push_status (w : Word) : (s.push w).status = s.status := rfl
@[simp] theorem push_stack (w : Word) : (s.push w).stack = w :: s.stack := rfl
@[simp] theorem push_mem (w : Word) : (s.push w).mem = s.mem := rfl
@[simp] theorem push_disp (w : Word) : (s.push w).disp = s.disp := rfl
@[simp] theorem push_key (w : Word) : (s.push w).key = s.key := rfl
@[simp] theorem push_randIn (w : Word) : (s.push w).randIn = s.randIn := rfl
@[simp] theorem push_randDraws (w : Word) : (s.push w).randDraws = s.randDraws := rfl
@[simp] theorem push_params (w : Word) : (s.push w).params = s.params := rfl

/-! ### advance -/

@[simp] theorem advance_V : (s.advance).V = s.V := rfl
@[simp] theorem advance_pc : (s.advance).pc = s.pc + 2 := rfl
@[simp] theorem advance_I : (s.advance).I = s.I := rfl
@[simp] theorem advance_DT : (s.advance).DT = s.DT := rfl
@[simp] theorem advance_ST : (s.advance).ST = s.ST := rfl
@[simp] theorem advance_status : (s.advance).status = s.status := rfl
@[simp] theorem advance_stack : (s.advance).stack = s.stack := rfl
@[simp] theorem advance_mem : (s.advance).mem = s.mem := rfl
@[simp] theorem advance_disp : (s.advance).disp = s.disp := rfl
@[simp] theorem advance_key : (s.advance).key = s.key := rfl
@[simp] theorem advance_randIn : (s.advance).randIn = s.randIn := rfl
@[simp] theorem advance_randDraws : (s.advance).randDraws = s.randDraws := rfl
@[simp] theorem advance_params : (s.advance).params = s.params := rfl

/-! ### consumeRandom -/

@[simp] theorem consumeRandom_V : (s.consumeRandom).V = s.V := rfl
@[simp] theorem consumeRandom_pc : (s.consumeRandom).pc = s.pc := rfl
@[simp] theorem consumeRandom_I : (s.consumeRandom).I = s.I := rfl
@[simp] theorem consumeRandom_DT : (s.consumeRandom).DT = s.DT := rfl
@[simp] theorem consumeRandom_ST : (s.consumeRandom).ST = s.ST := rfl
@[simp] theorem consumeRandom_status : (s.consumeRandom).status = s.status := rfl
@[simp] theorem consumeRandom_stack : (s.consumeRandom).stack = s.stack := rfl
@[simp] theorem consumeRandom_mem : (s.consumeRandom).mem = s.mem := rfl
@[simp] theorem consumeRandom_disp : (s.consumeRandom).disp = s.disp := rfl
@[simp] theorem consumeRandom_key : (s.consumeRandom).key = s.key := rfl
@[simp] theorem consumeRandom_randIn : (s.consumeRandom).randIn = s.randIn.tail := rfl
@[simp] theorem consumeRandom_randDraws : (s.consumeRandom).randDraws = s.randDraws + 1 := rfl
@[simp] theorem consumeRandom_params : (s.consumeRandom).params = s.params := rfl

/-! ### loadRegRange -/

@[simp] theorem loadRegRange_pc (x : Nibble) (a : Nat) : (s.loadRegRange x a).pc = s.pc := rfl
@[simp] theorem loadRegRange_I (x : Nibble) (a : Nat) : (s.loadRegRange x a).I = s.I := rfl
@[simp] theorem loadRegRange_DT (x : Nibble) (a : Nat) : (s.loadRegRange x a).DT = s.DT := rfl
@[simp] theorem loadRegRange_ST (x : Nibble) (a : Nat) : (s.loadRegRange x a).ST = s.ST := rfl
@[simp] theorem loadRegRange_status (x : Nibble) (a : Nat) : (s.loadRegRange x a).status = s.status := rfl
@[simp] theorem loadRegRange_stack (x : Nibble) (a : Nat) : (s.loadRegRange x a).stack = s.stack := rfl
@[simp] theorem loadRegRange_mem (x : Nibble) (a : Nat) : (s.loadRegRange x a).mem = s.mem := rfl
@[simp] theorem loadRegRange_disp (x : Nibble) (a : Nat) : (s.loadRegRange x a).disp = s.disp := rfl
@[simp] theorem loadRegRange_key (x : Nibble) (a : Nat) : (s.loadRegRange x a).key = s.key := rfl
@[simp] theorem loadRegRange_randIn (x : Nibble) (a : Nat) : (s.loadRegRange x a).randIn = s.randIn := rfl
@[simp] theorem loadRegRange_randDraws (x : Nibble) (a : Nat) : (s.loadRegRange x a).randDraws = s.randDraws := rfl
@[simp] theorem loadRegRange_params (x : Nibble) (a : Nat) : (s.loadRegRange x a).params = s.params := rfl

/-! ### setKey -/

@[simp] theorem setKey_V (k : Nibble) (p : Bool) : (s.setKey k p).V = s.V := rfl
@[simp] theorem setKey_pc (k : Nibble) (p : Bool) : (s.setKey k p).pc = s.pc := rfl
@[simp] theorem setKey_I (k : Nibble) (p : Bool) : (s.setKey k p).I = s.I := rfl
@[simp] theorem setKey_DT (k : Nibble) (p : Bool) : (s.setKey k p).DT = s.DT := rfl
@[simp] theorem setKey_ST (k : Nibble) (p : Bool) : (s.setKey k p).ST = s.ST := rfl
@[simp] theorem setKey_status (k : Nibble) (p : Bool) : (s.setKey k p).status = s.status := rfl
@[simp] theorem setKey_stack (k : Nibble) (p : Bool) : (s.setKey k p).stack = s.stack := rfl
@[simp] theorem setKey_mem (k : Nibble) (p : Bool) : (s.setKey k p).mem = s.mem := rfl
@[simp] theorem setKey_disp (k : Nibble) (p : Bool) : (s.setKey k p).disp = s.disp := rfl
@[simp] theorem setKey_key (k : Nibble) (p : Bool) : (s.setKey k p).key = s.key.set k.toNat p k.isLt := rfl
@[simp] theorem setKey_randIn (k : Nibble) (p : Bool) : (s.setKey k p).randIn = s.randIn := rfl
@[simp] theorem setKey_randDraws (k : Nibble) (p : Bool) : (s.setKey k p).randDraws = s.randDraws := rfl
@[simp] theorem setKey_params (k : Nibble) (p : Bool) : (s.setKey k p).params = s.params := rfl

/-! ### timerTick -/

@[simp] theorem timerTick_V : (s.timerTick).V = s.V := rfl
@[simp] theorem timerTick_pc : (s.timerTick).pc = s.pc := rfl
@[simp] theorem timerTick_I : (s.timerTick).I = s.I := rfl
@[simp] theorem timerTick_DT : (s.timerTick).DT = tickDown s.DT := rfl
@[simp] theorem timerTick_ST : (s.timerTick).ST = tickDown s.ST := rfl
@[simp] theorem timerTick_status : (s.timerTick).status = s.status := rfl
@[simp] theorem timerTick_stack : (s.timerTick).stack = s.stack := rfl
@[simp] theorem timerTick_mem : (s.timerTick).mem = s.mem := rfl
@[simp] theorem timerTick_disp : (s.timerTick).disp = s.disp := rfl
@[simp] theorem timerTick_key : (s.timerTick).key = s.key := rfl
@[simp] theorem timerTick_randIn : (s.timerTick).randIn = s.randIn := rfl
@[simp] theorem timerTick_randDraws : (s.timerTick).randDraws = s.randDraws := rfl
@[simp] theorem timerTick_params : (s.timerTick).params = s.params := rfl

/-! ### supplyRandom -/

@[simp] theorem supplyRandom_V (bs : List Byte) : (s.supplyRandom bs).V = s.V := rfl
@[simp] theorem supplyRandom_pc (bs : List Byte) : (s.supplyRandom bs).pc = s.pc := rfl
@[simp] theorem supplyRandom_I (bs : List Byte) : (s.supplyRandom bs).I = s.I := rfl
@[simp] theorem supplyRandom_DT (bs : List Byte) : (s.supplyRandom bs).DT = s.DT := rfl
@[simp] theorem supplyRandom_ST (bs : List Byte) : (s.supplyRandom bs).ST = s.ST := rfl
@[simp] theorem supplyRandom_status (bs : List Byte) : (s.supplyRandom bs).status = s.status := rfl
@[simp] theorem supplyRandom_stack (bs : List Byte) : (s.supplyRandom bs).stack = s.stack := rfl
@[simp] theorem supplyRandom_mem (bs : List Byte) : (s.supplyRandom bs).mem = s.mem := rfl
@[simp] theorem supplyRandom_disp (bs : List Byte) : (s.supplyRandom bs).disp = s.disp := rfl
@[simp] theorem supplyRandom_key (bs : List Byte) : (s.supplyRandom bs).key = s.key := rfl
@[simp] theorem supplyRandom_randIn (bs : List Byte) : (s.supplyRandom bs).randIn = s.randIn ++ bs := rfl
@[simp] theorem supplyRandom_randDraws (bs : List Byte) : (s.supplyRandom bs).randDraws = s.randDraws := rfl
@[simp] theorem supplyRandom_params (bs : List Byte) : (s.supplyRandom bs).params = s.params := rfl

/-! ### resetOp (R38, R210) -/

@[simp] theorem resetOp_V : (s.resetOp).V = Vector.replicate 16 0x00 := rfl
@[simp] theorem resetOp_pc : (s.resetOp).pc = 0x0200 := rfl
@[simp] theorem resetOp_I : (s.resetOp).I = 0x0000 := rfl
@[simp] theorem resetOp_DT : (s.resetOp).DT = 0x00 := rfl
@[simp] theorem resetOp_ST : (s.resetOp).ST = 0x00 := rfl
@[simp] theorem resetOp_status : (s.resetOp).status = .running := rfl
@[simp] theorem resetOp_stack : (s.resetOp).stack = [] := rfl
@[simp] theorem resetOp_mem : (s.resetOp).mem = s.params.memInit := rfl
@[simp] theorem resetOp_disp : (s.resetOp).disp = Vector.replicate 64 (Vector.replicate 32 false) := rfl
@[simp] theorem resetOp_key : (s.resetOp).key = Vector.replicate 16 false := rfl
@[simp] theorem resetOp_randIn : (s.resetOp).randIn = s.randIn := rfl
@[simp] theorem resetOp_randDraws : (s.resetOp).randDraws = s.randDraws := rfl
@[simp] theorem resetOp_params : (s.resetOp).params = s.params := rfl

end Sys2Proof.Machine
end

