-- ==== Sys2Proof/Laws/Registers.lean ====
section
/-! SUPPORT. Reading a register after each update, the flag writes, the skip, and the register ranges of
`Fx55` and `Fx65`. -/

namespace Sys2Proof.Machine

theorem getV_setV (s : State) (x y : Nibble) (b : Byte) :
    (s.setV x b).getV y = if y = x then b else s.getV y := by
  unfold State.getV State.setV
  simp only [Vector.getElem_set]
  by_cases h : y = x
  · subst h; simp
  · rw [if_neg h, if_neg]
    intro h'
    exact h (BitVec.eq_of_toNat_eq h'.symm)

@[simp] theorem getV_setV_same (s : State) (x : Nibble) (b : Byte) : (s.setV x b).getV x = b := by
  simp [getV_setV]

/-- Two states with the same registers, read through the accessor. -/
theorem getV_congr {s t : State} (h : t.V = s.V) (x : Nibble) : t.getV x = s.getV x := by
  unfold State.getV; simp [h]

section
variable (s : State) (x : Nibble)
@[simp] theorem getV_setPc (w : Word) : (s.setPc w).getV x = s.getV x := rfl
@[simp] theorem getV_setI (w : Word) : (s.setI w).getV x = s.getV x := rfl
@[simp] theorem getV_setDT (b : Byte) : (s.setDT b).getV x = s.getV x := rfl
@[simp] theorem getV_setST (b : Byte) : (s.setST b).getV x = s.getV x := rfl
@[simp] theorem getV_setStatus (st : Status) : (s.setStatus st).getV x = s.getV x := rfl
@[simp] theorem getV_store (a : Nat) (bs : List Byte) : (s.store a bs).getV x = s.getV x := rfl
@[simp] theorem getV_setDisp (d : Display) : (s.setDisp d).getV x = s.getV x := rfl
@[simp] theorem getV_push (w : Word) : (s.push w).getV x = s.getV x := rfl
@[simp] theorem getV_advance : s.advance.getV x = s.getV x := rfl
@[simp] theorem getV_consumeRandom : s.consumeRandom.getV x = s.getV x := rfl
end

/-! ### Flag writes -/

theorem getV_setFlag (s : State) (f : Bool) (y : Nibble) :
    (s.setFlag f).getV y = if y = 0xF then flagByte f else s.getV y := getV_setV s 0xF y _

theorem getV_setResultAndFlag (s : State) (x y : Nibble) (r : Byte) (f : Bool) :
    (s.setResultAndFlag x r f).getV y = if y = 0xF then flagByte f else if y = x then r else s.getV y := by
  unfold State.setResultAndFlag
  rw [getV_setFlag, getV_setV]

@[simp] theorem flagByte_toNat (f : Bool) : (flagByte f).toNat = f.toNat := by cases f <;> rfl

section
variable (s : State) (f : Bool)
@[simp] theorem setFlag_pc : (s.setFlag f).pc = s.pc := rfl
@[simp] theorem setFlag_I : (s.setFlag f).I = s.I := rfl
@[simp] theorem setFlag_DT : (s.setFlag f).DT = s.DT := rfl
@[simp] theorem setFlag_ST : (s.setFlag f).ST = s.ST := rfl
@[simp] theorem setFlag_status : (s.setFlag f).status = s.status := rfl
@[simp] theorem setFlag_stack : (s.setFlag f).stack = s.stack := rfl
@[simp] theorem setFlag_mem : (s.setFlag f).mem = s.mem := rfl
@[simp] theorem setFlag_disp : (s.setFlag f).disp = s.disp := rfl
@[simp] theorem setFlag_key : (s.setFlag f).key = s.key := rfl
@[simp] theorem setFlag_randIn : (s.setFlag f).randIn = s.randIn := rfl
@[simp] theorem setFlag_randDraws : (s.setFlag f).randDraws = s.randDraws := rfl
@[simp] theorem setFlag_params : (s.setFlag f).params = s.params := rfl
end

section
variable (s : State) (x : Nibble) (r : Byte) (f : Bool)
@[simp] theorem setResultAndFlag_pc : (s.setResultAndFlag x r f).pc = s.pc := rfl
@[simp] theorem setResultAndFlag_I : (s.setResultAndFlag x r f).I = s.I := rfl
@[simp] theorem setResultAndFlag_DT : (s.setResultAndFlag x r f).DT = s.DT := rfl
@[simp] theorem setResultAndFlag_ST : (s.setResultAndFlag x r f).ST = s.ST := rfl
@[simp] theorem setResultAndFlag_status : (s.setResultAndFlag x r f).status = s.status := rfl
@[simp] theorem setResultAndFlag_stack : (s.setResultAndFlag x r f).stack = s.stack := rfl
@[simp] theorem setResultAndFlag_mem : (s.setResultAndFlag x r f).mem = s.mem := rfl
@[simp] theorem setResultAndFlag_disp : (s.setResultAndFlag x r f).disp = s.disp := rfl
@[simp] theorem setResultAndFlag_key : (s.setResultAndFlag x r f).key = s.key := rfl
@[simp] theorem setResultAndFlag_randIn : (s.setResultAndFlag x r f).randIn = s.randIn := rfl
@[simp] theorem setResultAndFlag_randDraws : (s.setResultAndFlag x r f).randDraws = s.randDraws := rfl
@[simp] theorem setResultAndFlag_params : (s.setResultAndFlag x r f).params = s.params := rfl
end

/-! ### Skips (R108) -/

theorem skipIf_pc (s : State) (c : Bool) : (s.skipIf c).pc = if c then s.pc + 2 else s.pc := by
  cases c <;> rfl

section
variable (s : State) (c : Bool)
@[simp] theorem skipIf_V : (s.skipIf c).V = s.V := by cases c <;> rfl
@[simp] theorem skipIf_I : (s.skipIf c).I = s.I := by cases c <;> rfl
@[simp] theorem skipIf_DT : (s.skipIf c).DT = s.DT := by cases c <;> rfl
@[simp] theorem skipIf_ST : (s.skipIf c).ST = s.ST := by cases c <;> rfl
@[simp] theorem skipIf_status : (s.skipIf c).status = s.status := by cases c <;> rfl
@[simp] theorem skipIf_stack : (s.skipIf c).stack = s.stack := by cases c <;> rfl
@[simp] theorem skipIf_mem : (s.skipIf c).mem = s.mem := by cases c <;> rfl
@[simp] theorem skipIf_disp : (s.skipIf c).disp = s.disp := by cases c <;> rfl
@[simp] theorem skipIf_key : (s.skipIf c).key = s.key := by cases c <;> rfl
@[simp] theorem skipIf_randIn : (s.skipIf c).randIn = s.randIn := by cases c <;> rfl
@[simp] theorem skipIf_randDraws : (s.skipIf c).randDraws = s.randDraws := by cases c <;> rfl
@[simp] theorem skipIf_params : (s.skipIf c).params = s.params := by cases c <;> rfl
@[simp] theorem getV_skipIf (x : Nibble) : (s.skipIf c).getV x = s.getV x := by cases c <;> rfl
end

/-! ### Register ranges -/

@[simp] theorem regRange_length (s : State) (x : Nibble) : (s.regRange x).length = x.toNat + 1 := by
  have := x.isLt
  simp [State.regRange]
  omega

theorem regRange_get (s : State) (x k : Nibble) (h : k.toNat < (s.regRange x).length) :
    (s.regRange x)[k.toNat] = s.getV k := by
  simp [State.regRange, State.getV]

theorem getV_loadRegRange (s : State) (x k : Nibble) (base : Nat) :
    (s.loadRegRange x base).getV k =
      if k.toNat ≤ x.toNat then s.mem.read (base + k.toNat) else s.getV k := by
  simp [State.loadRegRange, State.getV]

end Sys2Proof.Machine
end

