-- ==== Sys2Proof/Laws/Keyboard.lean ====
section
/-! SUPPORT. What the keyboard operations do. -/

namespace Sys2Proof.Machine

theorem isPressed_setKey (s : State) (k j : Nibble) (p : Bool) :
    KeyLatch.isPressed (s.setKey k p).key j = if j = k then p else KeyLatch.isPressed s.key j := by
  unfold KeyLatch.isPressed
  simp only [setKey_key, Vector.getElem_set]
  by_cases h : j = k
  · subst h; simp
  · rw [if_neg h, if_neg]
    exact fun h' => h (BitVec.eq_of_toNat_eq h'.symm)

/-- Every key is in the scan, at its own place. -/
theorem allKeys_get : ∀ k : Nibble, allKeys[k.toNat]? = some k := by decide

theorem lowestPressed_none (l : KeyLatch) :
    KeyLatch.lowestPressed l = none ↔ ∀ k, KeyLatch.isPressed l k = false := by
  unfold KeyLatch.lowestPressed
  rw [List.find?_eq_none]
  exact ⟨fun h k => by simpa using h k (List.mem_of_getElem? (allKeys_get k)), fun h k _ => by simp [h k]⟩

/-- The scan ascends, so what it finds is pressed and every smaller key is released. -/
theorem lowestPressed_some (l : KeyLatch) (k : Nibble) :
    KeyLatch.lowestPressed l = some k ↔
      KeyLatch.isPressed l k = true ∧ ∀ j, j.toNat < k.toNat → KeyLatch.isPressed l j = false := by
  unfold KeyLatch.lowestPressed
  rw [List.find?_eq_some_iff_getElem]
  constructor
  · rintro ⟨h1, i, hi, he, h2⟩
    refine ⟨h1, fun j hj => ?_⟩
    have hik : i = k.toNat := by
      have := allKeys_get k
      rw [List.getElem?_eq_some_iff] at this
      obtain ⟨hk, hk'⟩ := this
      exact (List.Nodup.getElem_inj_iff (by decide : allKeys.Nodup)).1 (he.trans hk'.symm)
    have := h2 j.toNat (by omega)
    have hg := allKeys_get j
    rw [List.getElem?_eq_some_iff] at hg
    obtain ⟨_, hg'⟩ := hg
    simpa [hg'] using this
  · rintro ⟨h1, h2⟩
    have := allKeys_get k
    rw [List.getElem?_eq_some_iff] at this
    obtain ⟨hk, hk'⟩ := this
    refine ⟨h1, k.toNat, hk, hk', fun j hj => ?_⟩
    have hj16 : j < 16 := by have := k.isLt; omega
    have hg := allKeys_get (BitVec.ofNat 4 j)
    have hm : (BitVec.ofNat 4 j).toNat = j := by simp; omega
    rw [hm, List.getElem?_eq_some_iff] at hg
    obtain ⟨_, hg'⟩ := hg
    rw [hg', h2 _ (by omega)]
    rfl

/-- All that a poll of the keyboard does (R93). -/
theorem waitStep_cases (r : Nibble) (s : State) :
    (KeyLatch.lowestPressed s.key = none ∧ waitStep r s = s) ∨
    (∃ k, KeyLatch.lowestPressed s.key = some k ∧
      waitStep r s = (s.setV r (keyByte k)).setStatus .running) := by
  unfold waitStep
  cases h : KeyLatch.lowestPressed s.key with
  | none => exact .inl ⟨rfl, rfl⟩
  | some k => exact .inr ⟨k, rfl, rfl⟩

theorem keyByte_toNat (k : Nibble) : (keyByte k).toNat = k.toNat := by
  have := k.isLt
  simp [keyByte]; omega

theorem keyIndex_toNat (b : Byte) : (keyIndex b).toNat = b.toNat % 16 := by
  simp [keyIndex, BitVec.extractLsb'_toNat]

end Sys2Proof.Machine
end

