-- ==== Sys2Proof/Laws/Memory.lean ====
section
/-! SUPPORT. What the memory operations do: reads after writes, the canonical form, and equality of canonical
memories. -/

namespace Sys2Proof.Machine

@[simp] theorem read_nil (a : Nat) : Memory.read [] a = Memory.unlisted := rfl

theorem read_cons (a' : Nat) (b : Byte) (m : Memory) (a : Nat) :
    Memory.read ((a', b) :: m) a = if a' = a then b else m.read a := rfl

theorem wfFrom_cons (lo a : Nat) (b : Byte) (m : Memory) :
    Memory.wfFrom lo ((a, b) :: m) = true ↔
      lo ≤ a ∧ a < 4096 ∧ b ≠ Memory.unlisted ∧ Memory.wfFrom (a + 1) m = true := by
  simp [Memory.wfFrom, Config.memSize, and_assoc]

theorem wfFrom_mono {lo lo' : Nat} (h : lo' ≤ lo) {m : Memory} (hm : Memory.wfFrom lo m = true) :
    Memory.wfFrom lo' m = true := by
  cases m with
  | nil => rfl
  | cons c m =>
    obtain ⟨h1, h2⟩ := (wfFrom_cons _ _ _ _).1 hm
    exact (wfFrom_cons _ _ _ _).2 ⟨h.trans h1, h2⟩

/-- Below its first possible address a canonical memory reads as unlisted. -/
theorem read_of_lt {lo a : Nat} {m : Memory} (hm : Memory.wfFrom lo m = true) (h : a < lo) :
    m.read a = Memory.unlisted := by
  induction m generalizing lo with
  | nil => rfl
  | cons c m ih =>
    obtain ⟨h1, -, -, h4⟩ := (wfFrom_cons _ _ _ _).1 hm
    rw [read_cons, if_neg (by omega)]
    exact ih h4 (by omega)

theorem read_cell {lo a : Nat} {b : Byte} {m : Memory} (hm : Memory.wfFrom (a + 1) m = true) (a' : Nat)
    (_h : lo ≤ a) : (Memory.cell a b m).read a' = if a' = a then b else m.read a' := by
  unfold Memory.cell
  split
  · next hb =>
    split
    · next h => subst h; rw [hb, read_of_lt hm (by omega)]
    · rfl
  · rw [read_cons]; simp [eq_comm]

theorem wfFrom_cell {lo a : Nat} {b : Byte} {m : Memory} (hm : Memory.wfFrom (a + 1) m = true)
    (h : lo ≤ a) (ha : a < 4096) : Memory.wfFrom lo (Memory.cell a b m) = true := by
  unfold Memory.cell
  split
  · exact wfFrom_mono (by omega) hm
  · next hb => exact (wfFrom_cons _ _ _ _).2 ⟨h, ha, hb, hm⟩

/-- A write keeps the canonical form, and a read after it finds the byte there and the old byte elsewhere. -/
theorem write_spec {lo a : Nat} (b : Byte) {m : Memory} (hm : Memory.wfFrom lo m = true) (h : lo ≤ a)
    (ha : a < 4096) :
    Memory.wfFrom lo (m.write a b) = true ∧ ∀ a', (m.write a b).read a' = if a' = a then b else m.read a' := by
  induction m generalizing lo with
  | nil => exact ⟨wfFrom_cell rfl h ha, fun a' => read_cell (lo := lo) rfl a' h⟩
  | cons c m ih =>
    obtain ⟨c, v⟩ := c
    obtain ⟨h1, h2, h3, h4⟩ := (wfFrom_cons _ _ _ _).1 hm
    simp only [Memory.write]
    split
    · next hlt =>
      have hc : Memory.wfFrom (a + 1) ((c, v) :: m) = true := (wfFrom_cons _ _ _ _).2 ⟨hlt, h2, h3, h4⟩
      exact ⟨wfFrom_cell hc h ha, fun a' => read_cell (lo := lo) hc a' h⟩
    · split
      · next _ heq =>
        subst heq
        refine ⟨wfFrom_cell h4 h ha, fun a' => ?_⟩
        rw [read_cell (lo := lo) h4 a' h, read_cons]
        by_cases he : a' = a
        · rw [if_pos he, if_pos he]
        · rw [if_neg he, if_neg he, if_neg (Ne.symm he)]
      · next hnlt hne =>
        obtain ⟨i1, i2⟩ := ih h4 (by omega)
        refine ⟨(wfFrom_cons _ _ _ _).2 ⟨h1, h2, h3, i1⟩, fun a' => ?_⟩
        rw [read_cons, read_cons, i2]
        split
        · next he => rw [if_neg (by omega)]
        · rfl

theorem write_wf {a : Nat} (b : Byte) {m : Memory} (hm : m.wf = true) (ha : a < 4096) :
    (m.write a b).wf = true := (write_spec b hm (Nat.zero_le a) ha).1

theorem read_write {a : Nat} (b : Byte) {m : Memory} (hm : m.wf = true) (ha : a < 4096) (a' : Nat) :
    (m.write a b).read a' = if a' = a then b else m.read a' := (write_spec b hm (Nat.zero_le a) ha).2 a'

/-- In any memory, canonical or not, a write leaves every other address as it was. -/
theorem read_write_any (m : Memory) (a a' : Nat) (b : Byte) (h : a' ≠ a) :
    (m.write a b).read a' = m.read a' := by
  induction m with
  | nil => simp only [Memory.write, Memory.cell]; split <;> simp [read_cons, Ne.symm h]
  | cons c m ih =>
    obtain ⟨c, v⟩ := c
    simp only [Memory.write, Memory.cell]
    split_ifs <;> simp_all [read_cons, eq_comm]

/-- Storing bytes keeps the canonical form; the stored range reads as the bytes, all else as before. -/
theorem storeBytes_spec (bs : List Byte) {m : Memory} {a : Nat} (hm : m.wf = true)
    (ha : a + bs.length ≤ 4096) :
    (m.storeBytes a bs).wf = true ∧
    ∀ a', (m.storeBytes a bs).read a' = if h : a ≤ a' ∧ a' < a + bs.length then bs[a' - a]'(by omega) else m.read a' := by
  induction bs generalizing m a with
  | nil => exact ⟨hm, fun a' => by rw [dif_neg (by simp)]; rfl⟩
  | cons b bs ih =>
    simp only [List.length_cons] at ha
    obtain ⟨i1, i2⟩ := ih (write_wf b hm (a := a) (by omega)) (a := a + 1) (by omega)
    refine ⟨i1, fun a' => ?_⟩
    simp only [Memory.storeBytes, i2, read_write b hm (a := a) (by omega), List.length_cons]
    by_cases h1 : a' = a
    · subst h1; simp
    · by_cases h2 : a + 1 ≤ a' ∧ a' < a + 1 + bs.length
      · rw [dif_pos h2, dif_pos (by omega)]
        obtain ⟨k, rfl⟩ : ∃ k, a' = a + 1 + k := ⟨a' - (a + 1), by omega⟩
        simp [show a + 1 + k - a = k + 1 by omega]
      · rw [dif_neg h2, if_neg h1, dif_neg (by omega)]

theorem storeBytes_wf (bs : List Byte) {m : Memory} {a : Nat} (hm : m.wf = true)
    (ha : a + bs.length ≤ 4096) : (m.storeBytes a bs).wf = true := (storeBytes_spec bs hm ha).1

theorem read_storeBytes_in (bs : List Byte) {m : Memory} {a : Nat} (hm : m.wf = true)
    (ha : a + bs.length ≤ 4096) (k : Nat) (hk : k < bs.length) :
    (m.storeBytes a bs).read (a + k) = bs[k] := by
  rw [(storeBytes_spec bs hm ha).2, dif_pos ⟨by omega, by omega⟩]
  simp

/-- Outside the stored range every address reads as before, in any memory. -/
theorem read_storeBytes_out (bs : List Byte) (m : Memory) (a a' : Nat) (h : a' < a ∨ a + bs.length ≤ a') :
    (m.storeBytes a bs).read a' = m.read a' := by
  induction bs generalizing m a with
  | nil => rfl
  | cons b bs ih =>
    simp only [List.length_cons] at h
    simp only [Memory.storeBytes]
    rw [ih _ _ (by omega), read_write_any _ _ _ _ (by omega)]

/-- Canonical memories that read the same everywhere are the same list. -/
theorem memory_ext_from {lo : Nat} {m m' : Memory} (hm : Memory.wfFrom lo m = true)
    (hm' : Memory.wfFrom lo m' = true) (h : ∀ a, m.read a = m'.read a) : m = m' := by
  induction m generalizing lo m' with
  | nil =>
    cases m' with
    | nil => rfl
    | cons c m' =>
      obtain ⟨-, -, h3, -⟩ := (wfFrom_cons _ _ _ _).1 hm'
      have := h c.1
      rw [read_nil, show c :: m' = (c.1, c.2) :: m' from rfl, read_cons, if_pos rfl] at this
      exact absurd this.symm h3
  | cons c m ih =>
    obtain ⟨a, v⟩ := c
    obtain ⟨h1, h2, h3, h4⟩ := (wfFrom_cons _ _ _ _).1 hm
    cases m' with
    | nil =>
      have := h a
      rw [read_cons, if_pos rfl, read_nil] at this
      exact absurd this h3
    | cons c m' =>
      obtain ⟨a', v'⟩ := c
      obtain ⟨g1, g2, g3, g4⟩ := (wfFrom_cons _ _ _ _).1 hm'
      have haa : a = a' := by
        rcases Nat.lt_trichotomy a a' with hl | he | hg
        · have := h a
          rw [read_cons, if_pos rfl, read_cons, if_neg (by omega), read_of_lt g4 (by omega)] at this
          exact absurd this h3
        · exact he
        · have := h a'
          rw [read_cons, if_neg (by omega), read_cons, if_pos rfl, read_of_lt h4 (by omega)] at this
          exact absurd this.symm g3
      subst haa
      have hv : v = v' := by simpa [read_cons] using h a
      subst hv
      congr 1
      refine ih h4 g4 fun b => ?_
      by_cases hb : a = b
      · subst hb; rw [read_of_lt h4 (by omega), read_of_lt g4 (by omega)]
      · simpa [read_cons, hb] using h b

theorem memory_ext {m m' : Memory} (hm : m.wf = true) (hm' : m'.wf = true) (h : ∀ a, m.read a = m'.read a) :
    m = m' := memory_ext_from hm hm' h

/-- A canonical memory lists nothing outside the 4096 bytes. -/
theorem read_outside {lo a : Nat} {m : Memory} (hm : Memory.wfFrom lo m = true) (h : 4096 ≤ a) :
    m.read a = Memory.unlisted := by
  induction m generalizing lo with
  | nil => rfl
  | cons c m ih =>
    obtain ⟨a', b⟩ := c
    rw [wfFrom_cons] at hm
    rw [read_cons, if_neg (by omega)]
    exact ih hm.2.2.2

theorem reset_memory_wf : State.reset.mem.wf = true := rfl

end Sys2Proof.Machine
end

