-- ==== Sys2Proof/Laws/Operands.lean ====
section
/-! SUPPORT. The values of the operand forms and of the flags, as unsigned integers (spec/00_scope.md R10). -/

namespace Sys2Proof.Machine

@[simp] theorem addrImm_toNat (nnn : Addr12) : (addrImm nnn).toNat = nnn.toNat := by
  have := nnn.isLt
  simp [addrImm]; omega

@[simp] theorem zext16_toNat (b : Byte) : (zext16 b).toNat = b.toNat := by
  have := b.isLt
  simp [zext16]; omega

@[simp] theorem glyphAddr_toNat (b : Byte) : (glyphAddr b).toNat = b.toNat * 5 := by
  have := b.isLt
  simp [glyphAddr, BitVec.toNat_mul, Config.fontStride]; omega

@[simp] theorem bcdDigits_length (v : Byte) : (bcdDigits v).length = 3 := rfl

theorem carryOf_eq_true (a b : Byte) : carryOf a b = true ↔ 255 < a.toNat + b.toNat := by
  simp [carryOf]

theorem noBorrowOf_eq_true (a b : Byte) : noBorrowOf a b = true ↔ b.toNat ≤ a.toNat := by
  simp [noBorrowOf]

theorem shiftedOutRight_toNat (a : Byte) : (shiftedOutRight a).toNat = a.toNat % 2 := by
  simp only [shiftedOutRight, BitVec.getLsbD, Nat.testBit_zero]
  rcases Nat.mod_two_eq_zero_or_one a.toNat with h | h <;> simp [h]

theorem shiftedOutLeft_toNat (a : Byte) : (shiftedOutLeft a).toNat = a.toNat / 128 := by
  have := a.isLt
  simp only [shiftedOutLeft, BitVec.getLsbD, Nat.testBit_eq_decide_div_mod_eq]
  rcases (show a.toNat / 128 = 0 ∨ a.toNat / 128 = 1 by omega) with h | h <;> simp [h]

end Sys2Proof.Machine
end

