-- ==== Sys2Proof/Laws/Ops.lean ====
section
/-! SUPPORT. What the shared operations can answer: the range check, raising an error, the unknown word, the fetch
and the step. -/

namespace Sys2Proof.Machine

theorem checkRange_none (base len : Nat) :
    checkRange base len = none ↔ len = 0 ∨ base + len ≤ 4096 := by
  unfold checkRange
  simp only [Config.memSize]
  split <;> simp <;> omega

theorem checkRange_some (base len a : Nat) :
    checkRange base len = some a ↔ 0 < len ∧ 4096 < base + len ∧ a = base + len - 1 := by
  unfold checkRange
  simp only [Config.memSize]
  split <;> simp <;> omega

/-- All that `withRange` does: the error when the range leaves memory, else the continuation. -/
theorem withRange_cases (base len : Nat) (s : State) (k : Outcome) :
    (0 < len ∧ 4096 < base + len ∧
      withRange base len s k = .fault (.memoryAccessError (base + len - 1) s)) ∨
    ((len = 0 ∨ base + len ≤ 4096) ∧ withRange base len s k = k) := by
  unfold withRange
  cases h : checkRange base len with
  | none => exact .inr ⟨(checkRange_none _ _).1 h, rfl⟩
  | some a =>
    obtain ⟨h1, h2, rfl⟩ := (checkRange_some _ _ _).1 h
    exact .inl ⟨h1, h2, rfl⟩

theorem withRange_ok {base len : Nat} (s : State) (k : Outcome) (h : len = 0 ∨ base + len ≤ 4096) :
    withRange base len s k = k := by
  rcases withRange_cases base len s k with ⟨h1, h2, -⟩ | ⟨-, h2⟩
  · omega
  · exact h2

theorem withRange_fault {base len : Nat} (s : State) (k : Outcome) (h : 0 < len)
    (h' : 4096 < base + len) :
    withRange base len s k = .fault (.memoryAccessError (base + len - 1) s) := by
  rcases withRange_cases base len s k with ⟨-, -, h3⟩ | ⟨h1, -⟩
  · exact h3
  · omega

@[simp] theorem raise_eq (e : State → Fault) (s : State) : raise e s = .fault (e s) := rfl

theorem execUnknown_default (w : Word) (s : State) (h : s.params.strictUnknown = false) :
    execUnknown w s = .next s := by
  simp [execUnknown, h]

theorem execUnknown_strict (w : Word) (s : State) (h : s.params.strictUnknown = true) :
    execUnknown w s = .fault (.unknownInstruction w s) := by
  simp [execUnknown, h]

theorem canFetch_iff (s : State) : s.canFetch = true ↔ s.pc.toNat + 1 < 4096 := by
  simp [State.canFetch, Config.memSize]

/-- Where the fetch succeeds, `pc + 2` does not wrap (R28). -/
theorem advance_pc_toNat (s : State) (h : s.canFetch = true) : s.advance.pc.toNat = s.pc.toNat + 2 := by
  have := (canFetch_iff s).1 h
  simp only [State.advance, State.setPc, BitVec.toNat_add, show (2 : Word).toNat = 2 from rfl]
  omega

/-! ### The step -/

theorem step_awaiting {s : State} {r : Nibble} (h : s.status = .awaitingKey r) : step s = .next (waitStep r s) := by
  simp [step, engineStep, h]

theorem step_running {s : State} (h : s.status = .running) (hf : s.canFetch = true) :
    step s = execWord s.fetchWord s.advance := by
  simp [step, engineStep, fetchAndExecute, h, hf]

theorem step_fetch_error {s : State} (h : s.status = .running) (hf : s.canFetch = false) :
    step s = .fault (.memoryAccessError (s.pc.toNat + 1) s) := by
  simp [step, engineStep, fetchAndExecute, h, hf]

theorem execWord_ok {w : Word} {i : Instr} (h : decode w = .ok i) (s : State) : execWord w s = exec i s := by
  simp [execWord, h]

theorem execWord_error {w : Word} {e : Reject} (h : decode w = .error e) (s : State) :
    execWord w s = execUnknown w s := by
  simp [execWord, h]

/-- All that a step can be: a poll of the keyboard, a fetch error, an instruction, or an unknown word. -/
theorem step_cases (s : State) :
    (∃ r, s.status = .awaitingKey r ∧ step s = .next (waitStep r s)) ∨
    (s.status = .running ∧ s.canFetch = false ∧ step s = .fault (.memoryAccessError (s.pc.toNat + 1) s)) ∨
    (∃ i, s.status = .running ∧ s.canFetch = true ∧ decode s.fetchWord = .ok i ∧ step s = exec i s.advance) ∨
    (∃ e, s.status = .running ∧ s.canFetch = true ∧ decode s.fetchWord = .error e ∧
      step s = execUnknown s.fetchWord s.advance) := by
  cases hs : s.status with
  | awaitingKey r => exact .inl ⟨r, rfl, step_awaiting hs⟩
  | running =>
    cases hf : s.canFetch with
    | false => exact .inr (.inl ⟨rfl, rfl, step_fetch_error hs hf⟩)
    | true =>
      cases hd : decode s.fetchWord with
      | ok i => exact .inr (.inr (.inl ⟨i, rfl, rfl, rfl, by rw [step_running hs hf, execWord_ok hd]⟩))
      | error e => exact .inr (.inr (.inr ⟨e, rfl, rfl, rfl, by rw [step_running hs hf, execWord_error hd]⟩))

theorem nextWord_eq_some (s : State) (w : Word) :
    s.nextWord = some w ↔ s.status = .running ∧ s.canFetch = true ∧ w = s.fetchWord := by
  unfold State.nextWord
  cases s.status with
  | awaitingKey r => simp
  | running => cases s.canFetch <;> simp [eq_comm]

theorem nextWord_eq_none (s : State) :
    s.nextWord = none ↔ s.status ≠ .running ∨ s.canFetch = false := by
  unfold State.nextWord
  cases s.status with
  | awaitingKey r => simp
  | running => cases s.canFetch <;> simp

/-- An instruction is the next one exactly when the engine runs, the fetch succeeds and the word decodes to it. -/
theorem nextInstr_eq_some (s : State) (i : Instr) :
    s.nextInstr = some i ↔ s.status = .running ∧ s.canFetch = true ∧ decode s.fetchWord = .ok i := by
  unfold State.nextInstr State.nextWord
  cases s.status with
  | awaitingKey r => simp
  | running =>
    cases s.canFetch with
    | false => simp
    | true => cases h : decode s.fetchWord <;> simp [h]

theorem step_of_nextInstr {s : State} {i : Instr} (h : s.nextInstr = some i) : step s = exec i s.advance := by
  obtain ⟨h1, h2, h3⟩ := (nextInstr_eq_some s i).1 h
  rw [step_running h1 h2, execWord_ok h3]

/-- All that `load` can do: store the whole image at 0x200, or reject it. -/
theorem load_cases (s : State) (bytes : List Byte) :
    (bytes.length ≤ 3584 ∧ s.load bytes = .ok (s.store 0x200 bytes)) ∨
    (3584 < bytes.length ∧ s.load bytes = .error .imageTooLong) := by
  have h : imageFits bytes = decide (bytes.length ≤ 3584) := by
    simp [imageFits, Config.maxImage, Config.memSize, Config.programBase]
  unfold State.load
  rw [h]
  by_cases hl : bytes.length ≤ 3584
  · left; simp [hl, Config.programBase]
  · right; simp [hl]; omega

end Sys2Proof.Machine
end

