-- ==== Sys2Proof/Laws/PerInstr.lean ====
section
/-! SUPPORT. The per-instruction family OwnRow: the word of every instruction is selected by that instruction's own
row of the opcode map (spec/30_encoding.md R74). -/

namespace Sys2Proof

/-! ### Masking the formats -/

section
variable (c x y n : Nibble) (nn : Byte) (nnn : Addr12)

theorem mask_F000_NNN : formatNNN c nnn &&& 0xF000#16 = formatNNN c 0 := by
  show (c ++ nnn) &&& (0xF#4 ++ 0#12) = c ++ 0#12
  rw [BitVec.and_append, BitVec.and_zero]
  congr 1
  exact BitVec.and_allOnes

theorem mask_F000_XNN : formatXNN c x nn &&& 0xF000#16 = formatXNN c 0 0 := by
  show (c ++ x ++ nn) &&& (0xF#4 ++ 0#4 ++ 0#8) = c ++ 0#4 ++ 0#8
  simp only [BitVec.and_append, BitVec.and_zero]
  congr
  exact BitVec.and_allOnes

theorem mask_F000_XYN : formatXYN c x y n &&& 0xF000#16 = formatXYN c 0 0 0 := by
  show (c ++ x ++ y ++ n) &&& (0xF#4 ++ 0#4 ++ 0#4 ++ 0#4) = c ++ 0#4 ++ 0#4 ++ 0#4
  simp only [BitVec.and_append, BitVec.and_zero]
  congr
  exact BitVec.and_allOnes

theorem mask_F00F_XYN : formatXYN c x y n &&& 0xF00F#16 = formatXYN c 0 0 n := by
  show (c ++ x ++ y ++ n) &&& (0xF#4 ++ 0#4 ++ 0#4 ++ 0xF#4) = c ++ 0#4 ++ 0#4 ++ n
  simp only [BitVec.and_append, BitVec.and_zero]
  congr <;> exact BitVec.and_allOnes

theorem mask_F0FF_XNN : formatXNN c x nn &&& 0xF0FF#16 = formatXNN c 0 nn := by
  show (c ++ x ++ nn) &&& (0xF#4 ++ 0#4 ++ 0xFF#8) = c ++ 0#4 ++ nn
  simp only [BitVec.and_append, BitVec.and_zero]
  congr <;> exact BitVec.and_allOnes

end

namespace Laws.OwnRow

/-- The instruction's word is selected by its own row of the opcode map (R74). -/
def Statement (i : Instr) : Prop := ∃ r ∈ opcodeMap, r.num = i.rowNumber ∧ r.selects (encode i) = true

/-- From the place of the row in the map. -/
theorem of_row {i : Instr} (k : Fin 34) (h : (opcodeMap[k.val]'k.isLt).num = i.rowNumber)
    (hs : encode i &&& (opcodeMap[k.val]'k.isLt).mask = (opcodeMap[k.val]'k.isLt).mtch) : Statement i :=
  ⟨opcodeMap[k.val]'k.isLt, List.getElem_mem _, h, by simpa [OpRow.selects] using hs⟩

theorem cls : Statement .cls := of_row 0 rfl rfl
theorem ret : Statement .ret := of_row 1 rfl rfl
theorem jp (nnn : Addr12) : Statement (.jp nnn) := of_row 2 rfl ((mask_F000_NNN _ nnn).trans rfl)
theorem call (nnn : Addr12) : Statement (.call nnn) := of_row 3 rfl ((mask_F000_NNN _ nnn).trans rfl)
theorem seImm (x : Nibble) (nn : Byte) : Statement (.seImm x nn) := of_row 4 rfl ((mask_F000_XNN _ x nn).trans rfl)
theorem sneImm (x : Nibble) (nn : Byte) : Statement (.sneImm x nn) := of_row 5 rfl ((mask_F000_XNN _ x nn).trans rfl)
theorem seReg (x y : Nibble) : Statement (.seReg x y) := of_row 6 rfl ((mask_F00F_XYN _ x y _).trans rfl)
theorem ldImm (x : Nibble) (nn : Byte) : Statement (.ldImm x nn) := of_row 7 rfl ((mask_F000_XNN _ x nn).trans rfl)
theorem addImm (x : Nibble) (nn : Byte) : Statement (.addImm x nn) := of_row 8 rfl ((mask_F000_XNN _ x nn).trans rfl)
theorem ldReg (x y : Nibble) : Statement (.ldReg x y) := of_row 9 rfl ((mask_F00F_XYN _ x y _).trans rfl)
theorem orReg (x y : Nibble) : Statement (.orReg x y) := of_row 10 rfl ((mask_F00F_XYN _ x y _).trans rfl)
theorem andReg (x y : Nibble) : Statement (.andReg x y) := of_row 11 rfl ((mask_F00F_XYN _ x y _).trans rfl)
theorem xorReg (x y : Nibble) : Statement (.xorReg x y) := of_row 12 rfl ((mask_F00F_XYN _ x y _).trans rfl)
theorem addReg (x y : Nibble) : Statement (.addReg x y) := of_row 13 rfl ((mask_F00F_XYN _ x y _).trans rfl)
theorem sub (x y : Nibble) : Statement (.sub x y) := of_row 14 rfl ((mask_F00F_XYN _ x y _).trans rfl)
theorem shr (x y : Nibble) : Statement (.shr x y) := of_row 15 rfl ((mask_F00F_XYN _ x y _).trans rfl)
theorem subn (x y : Nibble) : Statement (.subn x y) := of_row 16 rfl ((mask_F00F_XYN _ x y _).trans rfl)
theorem shl (x y : Nibble) : Statement (.shl x y) := of_row 17 rfl ((mask_F00F_XYN _ x y _).trans rfl)
theorem sneReg (x y : Nibble) : Statement (.sneReg x y) := of_row 18 rfl ((mask_F00F_XYN _ x y _).trans rfl)
theorem ldI (nnn : Addr12) : Statement (.ldI nnn) := of_row 19 rfl ((mask_F000_NNN _ nnn).trans rfl)
theorem jpV0 (nnn : Addr12) : Statement (.jpV0 nnn) := of_row 20 rfl ((mask_F000_NNN _ nnn).trans rfl)
theorem rnd (x : Nibble) (nn : Byte) : Statement (.rnd x nn) := of_row 21 rfl ((mask_F000_XNN _ x nn).trans rfl)
theorem drw (x y n : Nibble) : Statement (.drw x y n) := of_row 22 rfl ((mask_F000_XYN _ x y n).trans rfl)
theorem skp (x : Nibble) : Statement (.skp x) := of_row 23 rfl ((mask_F0FF_XNN _ x _).trans rfl)
theorem sknp (x : Nibble) : Statement (.sknp x) := of_row 24 rfl ((mask_F0FF_XNN _ x _).trans rfl)
theorem ldVxDT (x : Nibble) : Statement (.ldVxDT x) := of_row 25 rfl ((mask_F0FF_XNN _ x _).trans rfl)
theorem ldVxK (x : Nibble) : Statement (.ldVxK x) := of_row 26 rfl ((mask_F0FF_XNN _ x _).trans rfl)
theorem ldDTVx (x : Nibble) : Statement (.ldDTVx x) := of_row 27 rfl ((mask_F0FF_XNN _ x _).trans rfl)
theorem ldSTVx (x : Nibble) : Statement (.ldSTVx x) := of_row 28 rfl ((mask_F0FF_XNN _ x _).trans rfl)
theorem addI (x : Nibble) : Statement (.addI x) := of_row 29 rfl ((mask_F0FF_XNN _ x _).trans rfl)
theorem ldF (x : Nibble) : Statement (.ldF x) := of_row 30 rfl ((mask_F0FF_XNN _ x _).trans rfl)
theorem ldB (x : Nibble) : Statement (.ldB x) := of_row 31 rfl ((mask_F0FF_XNN _ x _).trans rfl)
theorem storeRegs (x : Nibble) : Statement (.storeRegs x) := of_row 32 rfl ((mask_F0FF_XNN _ x _).trans rfl)
theorem loadRegs (x : Nibble) : Statement (.loadRegs x) := of_row 33 rfl ((mask_F0FF_XNN _ x _).trans rfl)

end Laws.OwnRow

end Sys2Proof
end

