-- ==== Sys2Proof/Tests/Slice0.lean ====
section
/-! SUPPORT. The model's own tests: ill-formed words, images and memories; the decoding of words written out bit by
bit from the opcode map (spec/30_encoding.md R74); one step of each instruction on vectors of
spec/95_test_vectors.md, whose ids the comments name; and a state that meets the hypotheses of each statement. -/

namespace Sys2Proof.Tests

open Sys2Proof Sys2Proof.Machine

/-! ### Ill-formed terms -/

-- R77, vectors F7 to F11: one refused word for each class that has unknown words.
theorem test_class0_ill_formed : knownWord 0x0000#16 = false ∧ knownWord 0x0123#16 = false := by decide
theorem test_class5_ill_formed : knownWord 0x5AB1#16 = false := by decide
theorem test_class8_ill_formed : knownWord 0x8008#16 = false ∧ knownWord 0x800F#16 = false := by decide
theorem test_class9_ill_formed : knownWord 0x9AB1#16 = false := by decide
theorem test_classE_ill_formed : knownWord 0xE09F#16 = false ∧ knownWord 0xE1A0#16 = false := by decide
theorem test_classF_ill_formed : knownWord 0xF130#16 = false ∧ knownWord 0xF275#16 = false := by decide
-- Every operand value is known where the class has no discriminant (R74).
theorem test_well_formed : knownWord 0x1FFF#16 = true ∧ knownWord 0xDFFF#16 = true ∧ knownWord 0xFF65#16 = true := by
  decide

-- R167: 3584 bytes fit, 3585 do not.
theorem test_image_fits : imageFits (List.replicate 3584 0xAA) = true := by
  rw [imageFits, List.length_replicate]; decide
theorem test_image_ill_formed : imageFits (List.replicate 3585 0xAA) = false := by
  rw [imageFits, List.length_replicate]; decide

-- Memory: out of order, twice the same address, a listed 0x00, an address that does not exist.
theorem test_memory_ill_formed : Memory.wf [(2, 1), (1, 1)] = false ∧ Memory.wf [(1, 1), (1, 2)] = false ∧
    Memory.wf [(1, 0)] = false ∧ Memory.wf [(4096, 1)] = false := by decide
theorem test_memory_well_formed : Memory.wf [(0, 1), (4095, 0xFF)] = true := by decide

/-! ### Decoding: words written out from the opcode map -/

theorem test_decode_class0 : decode 0b0000000011100000#16 = .ok .cls ∧ decode 0b0000000011101110#16 = .ok .ret :=
  ⟨rfl, rfl⟩
theorem test_decode_jp : decode 0b0001101111001101#16 = .ok (.jp 0xBCD) := rfl
theorem test_decode_call : decode 0b0010101111001101#16 = .ok (.call 0xBCD) := rfl
theorem test_decode_seImm : decode 0b0011101001000010#16 = .ok (.seImm 0xA 0x42) := rfl
theorem test_decode_sneImm : decode 0b0100101001000010#16 = .ok (.sneImm 0xA 0x42) := rfl
theorem test_decode_seReg : decode 0b0101101010110000#16 = .ok (.seReg 0xA 0xB) := rfl
theorem test_decode_ldImm : decode 0b0110101001000010#16 = .ok (.ldImm 0xA 0x42) := rfl
theorem test_decode_addImm : decode 0b0111101001000010#16 = .ok (.addImm 0xA 0x42) := rfl
theorem test_decode_moves : decode 0b1000000100100000#16 = .ok (.ldReg 1 2) ∧
    decode 0b1000000100100001#16 = .ok (.orReg 1 2) ∧ decode 0b1000000100100010#16 = .ok (.andReg 1 2) ∧
    decode 0b1000000100100011#16 = .ok (.xorReg 1 2) := ⟨rfl, rfl, rfl, rfl⟩
theorem test_decode_arithmetic : decode 0b1000000100100100#16 = .ok (.addReg 1 2) ∧
    decode 0b1000000100100101#16 = .ok (.sub 1 2) ∧ decode 0b1000000100100110#16 = .ok (.shr 1 2) ∧
    decode 0b1000000100100111#16 = .ok (.subn 1 2) ∧ decode 0b1000000100101110#16 = .ok (.shl 1 2) :=
  ⟨rfl, rfl, rfl, rfl, rfl⟩
theorem test_decode_sneReg : decode 0b1001101010110000#16 = .ok (.sneReg 0xA 0xB) := rfl
theorem test_decode_ldI : decode 0b1010001000110100#16 = .ok (.ldI 0x234) := rfl
theorem test_decode_jpV0 : decode 0b1011001100000000#16 = .ok (.jpV0 0x300) := rfl
theorem test_decode_rnd : decode 0b1100000100001111#16 = .ok (.rnd 1 0x0F) := rfl
theorem test_decode_drw : decode 0b1101000100101111#16 = .ok (.drw 1 2 0xF) := rfl
theorem test_decode_keys : decode 0b1110001110011110#16 = .ok (.skp 3) ∧ decode 0b1110001110100001#16 = .ok (.sknp 3) :=
  ⟨rfl, rfl⟩
theorem test_decode_timers : decode 0b1111001100000111#16 = .ok (.ldVxDT 3) ∧
    decode 0b1111001100001010#16 = .ok (.ldVxK 3) ∧ decode 0b1111001100010101#16 = .ok (.ldDTVx 3) ∧
    decode 0b1111001100011000#16 = .ok (.ldSTVx 3) := ⟨rfl, rfl, rfl, rfl⟩
theorem test_decode_memory : decode 0b1111001100011110#16 = .ok (.addI 3) ∧
    decode 0b1111001100101001#16 = .ok (.ldF 3) ∧ decode 0b1111001100110011#16 = .ok (.ldB 3) ∧
    decode 0b1111001101010101#16 = .ok (.storeRegs 3) ∧ decode 0b1111001101100101#16 = .ok (.loadRegs 3) :=
  ⟨rfl, rfl, rfl, rfl, rfl⟩
theorem test_decode_unknown : decode 0x0000#16 = .error (.unknownWord 0x0000) ∧
    decode 0xF0FF#16 = .error (.unknownWord 0xF0FF) := ⟨rfl, rfl⟩
-- R50: the byte at the lower address is the high one; one byte is no instruction.
theorem test_decode_bytes : decodeBytes [0x12, 0x34, 0x56] = .ok (.jp 0x234, [0x56]) ∧
    decodeBytes [0x12] = .error .needTwoBytes := ⟨rfl, rfl⟩
theorem test_table_word : decodeTableWord 16 0x8014 = some (.addReg 0 1) ∧ decodeTableWord 16 0x8018 = none := by decide

/-! ### One step of each instruction -/

/-- The state after one step from `s` with the word `w` at `pc`. -/
def after (w : Nat) (s : State) : State := stateAfter (s.withFetchWord 16 w)

/-- The error code of that step. -/
def code (w : Nat) (s : State) : Nat := errorCode (step (s.withFetchWord 16 w))

/-- Reset, with `V[1]` and `V[2]` set. -/
def vv (a b : Byte) : State := (State.reset.setV 1 a).setV 2 b

/-- Reset, with one sprite byte at 0x300, `I` at it, and both coordinates in `V[1]` and `V[2]`. -/
def sprite (b v1 v2 : Byte) : State := ((vv v1 v2).setI 0x300).store 0x300 [b]

-- S1, S8: the fetch is big-endian and moves pc by 2.
theorem test_fetch : (after 0xA234 State.reset).I = 0x234 ∧ (after 0xA234 State.reset).pc = 0x202 := by decide
-- F2: the last fetch that succeeds.
theorem test_fetch_last : (after 0x6109 (State.reset.setPc 0xFFE)).getV 1 = 9 ∧
    (after 0x6109 (State.reset.setPc 0xFFE)).pc = 0x1000 := by decide
-- F3, F4: the fetch error; pc stays.
theorem test_fetch_error : step (State.reset.setPc 0xFFF) =
    .fault (.memoryAccessError 0x1000 (State.reset.setPc 0xFFF)) := rfl
-- F6: an unknown word, in both modes.
theorem test_unknown : (stateAfter State.reset).pc = 0x202 ∧ State.reset.diagnostic = some 0x0000 := by decide
theorem test_unknown_strict : errorCode (step (State.resetWith ⟨none, true, []⟩)) = 4 ∧
    (stateAfter (State.resetWith ⟨none, true, []⟩)).pc = 0x202 := by decide
-- X1.
theorem test_cls : let s := State.reset.setVF 1 |>.setDisp (Display.clear.put 0 0 true |>.put 63 31 true)
    (after 0x00E0 s).disp.pixelAt 0 0 = false ∧ (after 0x00E0 s).disp.pixelAt 63 31 = false ∧
      (after 0x00E0 s).getVF = 1 := by decide
-- J7, J8.
theorem test_ret : (after 0x00EE ((State.reset.push 0x202).push 0x30A)).pc = 0x30A ∧
    (after 0x00EE ((State.reset.push 0x202).push 0x30A)).stack = [0x202] := by decide
theorem test_ret_empty : code 0x00EE State.reset = 2 ∧ (after 0x00EE State.reset).pc = 0x202 := by decide
-- J2.
theorem test_jp : (after 0x1FFF State.reset).pc = 0xFFF := by decide
-- J4; J5, a full stack of 16.
theorem test_call : (after 0x2300 State.reset).pc = 0x300 ∧ (after 0x2300 State.reset).stack = [0x202] := by decide
theorem test_call_full : code 0x2300 ({ State.resetWith ⟨some 16, false, []⟩ with stack := List.replicate 16 0x202 }) = 3 ∧
    code 0x2300 ({ State.resetWith ⟨some 16, false, []⟩ with stack := List.replicate 15 0x202 }) = 0 := by decide
-- J9 to J17.
theorem test_seImm : (after 0x3142 (vv 0x42 0)).pc = 0x204 ∧ (after 0x3142 (vv 0x43 0)).pc = 0x202 := by decide
theorem test_sneImm : (after 0x4142 (vv 0x42 0)).pc = 0x202 ∧ (after 0x4142 (vv 0x43 0)).pc = 0x204 := by decide
theorem test_seReg : (after 0x5120 (vv 0x80 0x80)).pc = 0x204 ∧ (after 0x5120 (vv 0x80 0x7F)).pc = 0x202 := by decide
theorem test_sneReg : (after 0x9120 (vv 1 2)).pc = 0x204 ∧ (after 0x9330 (vv 1 2)).pc = 0x202 := by decide
-- A1, A2.
theorem test_ldImm : (after 0x6AFF State.reset).getV 0xA = 0xFF ∧ (after 0x6F07 State.reset).getVF = 7 := by decide
-- S2, A5.
theorem test_addImm : (after 0x7001 ((State.reset.setV 0 0xFF).setVF 0x5A)).getV 0 = 0 ∧
    (after 0x7001 ((State.reset.setV 0 0xFF).setVF 0x5A)).getVF = 0x5A := by decide
-- A7 to A10: VF is not touched.
theorem test_ldReg : (after 0x8120 (vv 1 0xC3)).getV 1 = 0xC3 ∧ (after 0x8120 (vv 1 0xC3)).getV 2 = 0xC3 := by decide
theorem test_or : (after 0x8121 ((vv 0xF0 0x3C).setVF 5)).getV 1 = 0xFC ∧
    (after 0x8121 ((vv 0xF0 0x3C).setVF 5)).getVF = 5 := by decide
theorem test_and : (after 0x8122 ((vv 0xF0 0x3C).setVF 5)).getV 1 = 0x30 ∧
    (after 0x8122 ((vv 0xF0 0x3C).setVF 5)).getVF = 5 := by decide
theorem test_xor : (after 0x8123 ((vv 0xF0 0x3C).setVF 5)).getV 1 = 0xCC ∧
    (after 0x8123 ((vv 0xF0 0x3C).setVF 5)).getVF = 5 := by decide
-- A13, A14; A16, A18: VF as destination and as source.
theorem test_add : (after 0x8124 (vv 0xFF 0xFF)).getV 1 = 0xFE ∧ (after 0x8124 (vv 0xFF 0xFF)).getVF = 1 ∧
    (after 0x8124 ((vv 0xFE 1).setVF 1)).getVF = 0 := by decide
theorem test_add_flag_register : (after 0x8F14 ((vv 1 0).setVF 0xFF)).getVF = 1 ∧
    (after 0x81F4 ((vv 0xF0 0).setVF 0x20)).getV 1 = 0x10 ∧ (after 0x81F4 ((vv 0xF0 0).setVF 0x20)).getVF = 1 := by decide
-- S4b, A19; A22.
theorem test_sub : (after 0x8125 ((vv 3 5).setVF 1)).getV 1 = 0xFE ∧ (after 0x8125 ((vv 3 5).setVF 1)).getVF = 0 ∧
    (after 0x8125 (vv 7 7)).getVF = 1 := by decide
theorem test_sub_flag_register : (after 0x8F15 ((vv 3 0).setVF 5)).getVF = 1 := by decide
-- S5a, A25; A29.
theorem test_shr : (after 0x8126 (vv 0x81 0x55)).getV 1 = 0x40 ∧ (after 0x8126 (vv 0x81 0x55)).getVF = 1 ∧
    (after 0x8126 (vv 0x81 0x55)).getV 2 = 0x55 := by decide
theorem test_shr_flag_register : (after 0x8F16 (State.reset.setVF 2)).getVF = 0 := by decide
-- A31, A32; A35.
theorem test_subn : (after 0x8127 (vv 3 5)).getV 1 = 2 ∧ (after 0x8127 (vv 3 5)).getVF = 1 ∧
    (after 0x8127 ((vv 5 3).setVF 1)).getV 1 = 0xFE ∧ (after 0x8127 ((vv 5 3).setVF 1)).getVF = 0 := by decide
theorem test_subn_flag_register : (after 0x8F17 ((vv 5 0).setVF 3)).getVF = 1 := by decide
-- S5b, A39; A41.
theorem test_shl : (after 0x812E (vv 0x81 0)).getV 1 = 2 ∧ (after 0x812E (vv 0x81 0)).getVF = 1 ∧
    (after 0x812E ((vv 0x7F 0).setVF 1)).getVF = 0 := by decide
theorem test_shl_flag_register : (after 0x8F1E (State.reset.setVF 0x40)).getVF = 0 := by decide
-- M2.
theorem test_ldI : (after 0xAFFF State.reset).I = 0xFFF := by decide
-- J21, J22, J23.
theorem test_jpV0 : (after 0xBFFF (State.reset.setV 0 0xFF)).pc = 0x10FE ∧
    (after 0xB300 (State.reset.setV 3 0x55)).pc = 0x300 := by decide
-- A42; A43, the byte is consumed.
theorem test_rnd : (after 0xC10F (State.reset.supplyRandom [0xA7])).getV 1 = 0x07 := by decide
theorem test_rnd_consumes : (after 0xC100 (State.reset.supplyRandom [0xA7, 0x11])).randIn = [0x11] := by decide
-- X7, a collision; X10, VF as both coordinates.
theorem test_drw_collision : let s := (sprite 0xC0 0 0).setDisp (Display.clear.put 1 0 true)
    (after 0xD121 s).disp.pixelAt 0 0 = true ∧ (after 0xD121 s).disp.pixelAt 1 0 = false ∧
      (after 0xD121 s).getVF = 1 := by decide
theorem test_drw_flag_register : (after 0xDFF1 ((sprite 0x80 0 0).setVF 2)).disp.pixelAt 2 2 = true ∧
    (after 0xDFF1 ((sprite 0x80 0 0).setVF 2)).getVF = 0 := by decide
-- X6: wrapping per pixel, bit 7 first.
theorem test_drw_wraps : (after 0xD121 (sprite 0xC0 0xFF 0xFF)).disp.pixelAt 63 31 = true ∧
    (after 0xD121 (sprite 0xC0 0xFF 0xFF)).disp.pixelAt 0 31 = true ∧
    (after 0xD121 (sprite 0xC0 0xFF 0xFF)).disp.pixelAt 1 31 = false := by decide
-- X12: the whole range is checked before the first row; X9: no row, no check.
theorem test_drw_error : code 0xD122 (State.reset.setI 0xFFF) = 1 ∧
    (after 0xD122 ((State.reset.setI 0xFFF).setVF 1)).getVF = 1 := by decide
theorem test_drw_no_rows : code 0xD120 (State.reset.setI 0xFFFF) = 0 ∧
    (after 0xD120 ((State.reset.setI 0xFFFF).setVF 1)).getVF = 0 := by decide
-- K1, K2, K5; K3, K6.
theorem test_skp : (after 0xE19E ((vv 0x13 0).setKey 3 true)).pc = 0x204 ∧
    (after 0xE19E ((vv 3 0).setKey 4 true)).pc = 0x202 := by decide
theorem test_sknp : (after 0xE1A1 ((vv 0xF0 0).setKey 0 true)).pc = 0x202 ∧ (after 0xE1A1 (vv 3 0)).pc = 0x204 := by decide
-- K19; K17; K18.
theorem test_ldVxDT : (after 0xF107 (State.reset.setDT 0x2A)).getV 1 = 0x2A ∧
    (after 0xF107 (State.reset.setDT 0x2A)).DT = 0x2A := by decide
theorem test_ldDTVx : (after 0xF115 (vv 0x3C 0)).DT = 60 ∧ (after 0xF115 (vv 0x3C 0)).ST = 0 := by decide
theorem test_ldSTVx : (after 0xF118 (vv 2 0)).ST = 2 ∧ (after 0xF118 (vv 2 0)).DT = 0 := by decide
-- K12; K14, K15.
theorem test_ldVxK : (after 0xF50A (State.reset.setKey 9 true)).status = .awaitingKey 5 ∧
    (after 0xF50A (State.reset.setKey 9 true)).getV 5 = 0 := by decide
theorem test_wait : let s := ((State.reset.setStatus (.awaitingKey 15)).setKey 6 true).setKey 2 true
    (stateAfter s).getVF = 2 ∧ (stateAfter s).status = .running ∧ (stateAfter s).pc = 0x200 := by decide
-- M3, M4.
theorem test_addI : (after 0xF11E ((vv 1 0).setI 0x0FFF)).I = 0x1000 ∧ (after 0xF11E ((vv 1 0).setI 0xFFFF)).I = 0 := by
  decide
-- R132: the whole of Vx times 5, 255 * 5 = 1275.
theorem test_ldF : (after 0xF129 (vv 0xFF 0)).I = 1275 ∧ (after 0xF129 (vv 0xA 0)).I = 50 := by decide
-- R133: 254 is 2, 5, 4; I = 0xFFE does not fit.
theorem test_ldB : (after 0xF133 ((vv 254 0).setI 0x300)).mem.read 0x300 = 2 ∧
    (after 0xF133 ((vv 254 0).setI 0x300)).mem.read 0x301 = 5 ∧
    (after 0xF133 ((vv 254 0).setI 0x300)).mem.read 0x302 = 4 := by decide
theorem test_ldB_error : code 0xF133 (State.reset.setI 0xFFE) = 1 ∧ code 0xF133 (State.reset.setI 0xFFD) = 0 := by decide
-- M23; M22.
theorem test_storeRegs : (after 0xF155 (((vv 7 9).setV 0 5).setI 0xFFE)).mem.read 0xFFE = 5 ∧
    (after 0xF155 (((vv 7 9).setV 0 5).setI 0xFFE)).mem.read 0xFFF = 7 ∧
    (after 0xF155 (((vv 7 9).setV 0 5).setI 0xFFE)).I = 0xFFE := by decide
theorem test_storeRegs_error : code 0xF255 ((vv 7 9).setI 0xFFE) = 1 ∧
    (after 0xF255 ((vv 7 9).setI 0xFFE)).mem.read 0xFFF = 0 := by decide
-- M24; M28.
theorem test_loadRegs : let s := ((State.reset.setV 3 0x55).setI 0x400).store 0x400 [9, 8, 7, 6]
    (after 0xF265 s).getV 0 = 9 ∧ (after 0xF265 s).getV 2 = 7 ∧ (after 0xF265 s).getV 3 = 0x55 := by decide
theorem test_loadRegs_error : code 0xF065 (State.reset.setI 0xFFFF) = 1 ∧ code 0xF165 (State.reset.setI 0xFFF) = 1 := by
  decide

/-! ### Host operations -/

-- S10, K9.
theorem test_lowest : KeyLatch.lowestPressed ((State.reset.setKey 7 true).setKey 3 true).key = some 3 ∧
    KeyLatch.lowestPressed (State.reset.setKey 15 true).key = some 15 := by decide
-- K21, K22.
theorem test_tick : ((State.reset.setDT 2).timerTick).DT = 1 ∧ ((State.reset.setDT 2).timerTick).ST = 0 := by decide
-- H5.
theorem test_load : (Event.act (.load [0x12, 0x34]) (State.reset.setPc 0x300)).mem = [(0x200, 0x12), (0x201, 0x34)] ∧
    (Event.act (.load [0x12, 0x34]) (State.reset.setPc 0x300)).pc = 0x300 := by decide

/-! ### States that meet the hypotheses of the statements -/

/-- A state whose next instruction is the word `w`. -/
def next (w : Nat) : State := State.reset.withFetchWord 16 w

theorem witness_DecodeEncodeRoundTrip : decode 0x1FFF#16 = .ok (.jp 0xFFF) ∧ decode 0xFF65#16 = .ok (.loadRegs 0xF) :=
  ⟨rfl, rfl⟩
theorem witness_DecoderFollowsTheOpcodeMap : (∃ r ∈ opcodeMap, r.selects 0x8FFE#16 = true ∧ r.num = 18) ∧
    decode 0x8FFE#16 = .ok (.shl 0xF 0xF) ∧ knownWord 0xFFFF#16 = false := by
  refine ⟨⟨⟨18, "8xyE", 0xF00F#16, 0x800E#16⟩, ?_, ?_, ?_⟩, rfl, ?_⟩ <;> decide
theorem witness_UnknownWordsAreExactlyTheListedOnes :
    decode 0x00EF#16 = .error (.unknownWord 0x00EF) ∧ decode 0x5FF1#16 = .error (.unknownWord 0x5FF1) ∧
    decode 0x900F#16 = .error (.unknownWord 0x900F) ∧ decode 0x800F#16 = .error (.unknownWord 0x800F) ∧
    decode 0xE09D#16 = .error (.unknownWord 0xE09D) ∧ decode 0xF066#16 = .error (.unknownWord 0xF066) :=
  ⟨rfl, rfl, rfl, rfl, rfl, rfl⟩
theorem witness_StepRunsTheDecodedInstruction : let s := (State.reset.setPc 0xFFE).withFetchWord 16 0x6109
    s.status = .running ∧ s.pc.toNat + 1 < 4096 ∧ s.pc = 0xFFE ∧ s.nextInstr = some (.ldImm 1 9) := by decide
theorem witness_FailedFetchLeavesTheStateUnchanged : (State.reset.setPc 0xFFF).status = .running ∧
    4096 ≤ (State.reset.setPc 0xFFF).pc.toNat + 1 := by decide
theorem witness_UnknownWordIsSkippedOrReported : State.reset.status = .running ∧
    State.reset.pc.toNat + 1 < 4096 ∧ knownWord State.reset.fetchWord = false ∧
    State.reset.params.strictUnknown = false ∧ (State.resetWith ⟨none, true, []⟩).params.strictUnknown = true ∧
    knownWord (State.resetWith ⟨none, true, []⟩).fetchWord = false := by decide
theorem witness_DiagnosticExactlyForUnknownWords : (State.reset.setPc 0xFFE).diagnostic = some 0x0000 ∧
    (State.reset.setPc 0xFFF).diagnostic = none ∧ (next 0x1200).diagnostic = none := by decide
theorem witness_KeyWaitPollsTheLatch :
    (State.reset.setStatus (.awaitingKey 0xF)).status = .awaitingKey 0xF ∧
    (∀ k, KeyLatch.isPressed (State.reset.setStatus (.awaitingKey 0xF)).key k = false) ∧
    KeyLatch.isPressed ((State.reset.setStatus (.awaitingKey 0xF)).setKey 15 true).key 15 = true ∧
    (∀ j : Nibble, j.toNat < 15 →
      KeyLatch.isPressed ((State.reset.setStatus (.awaitingKey 0xF)).setKey 15 true).key j = false) := by decide
theorem witness_LowestPressedIsTheSmallestPressedKey : KeyLatch.lowestPressed State.reset.key = none ∧
    KeyLatch.lowestPressed ((State.reset.setKey 15 true).setKey 0 true).key = some 0 := by decide

/-- A step that answers a next state, from a state with the word `w` next. -/
def runs (w : Nat) (s : State) : Prop := ∃ t, step (s.withFetchWord 16 w) = .next t

theorem witness_StepWritesOnlyWhatItsInstructionMay :
    (runs 0xF115 (vv 1 0) ∧ (after 0xF115 (vv 1 0)).DT ≠ 0) ∧ (runs 0xF118 (vv 1 0) ∧ (after 0xF118 (vv 1 0)).ST ≠ 0) ∧
    (runs 0x00EE (State.reset.push 0x202) ∧ (after 0x00EE (State.reset.push 0x202)).stack ≠ [0x202]) ∧
    (runs 0x2300 State.reset ∧ (after 0x2300 State.reset).stack ≠ []) ∧
    (runs 0xF155 ((vv 1 0).setI 0x300) ∧ (after 0xF155 ((vv 1 0).setI 0x300)).mem.read 0x301 ≠ 0) ∧
    (runs 0xD121 (sprite 0x80 0 0) ∧ (after 0xD121 (sprite 0x80 0 0)).disp.pixelAt 0 0 = true) ∧
    (runs 0xC100 State.reset ∧ (after 0xC100 State.reset).randDraws ≠ 0) :=
  ⟨⟨⟨_, rfl⟩, by decide⟩, ⟨⟨_, rfl⟩, by decide⟩, ⟨⟨_, rfl⟩, by decide⟩, ⟨⟨_, rfl⟩, by decide⟩, ⟨⟨_, rfl⟩, by decide⟩,
    ⟨⟨_, rfl⟩, by decide⟩, ⟨⟨_, rfl⟩, by decide⟩⟩
theorem witness_IndexAndStatusHaveOnlyTheirWriters :
    (runs 0xA234 State.reset ∧ (after 0xA234 State.reset).I ≠ 0) ∧ (runs 0xF11E (vv 1 0) ∧ (after 0xF11E (vv 1 0)).I ≠ 0) ∧
    (runs 0xF129 (vv 1 0) ∧ (after 0xF129 (vv 1 0)).I ≠ 0) ∧
    (runs 0xF50A State.reset ∧ (after 0xF50A State.reset).status ≠ .running) ∧
    (stateAfter ((State.reset.setStatus (.awaitingKey 5)).setKey 0 true)).status = .running :=
  ⟨⟨⟨_, rfl⟩, by decide⟩, ⟨⟨_, rfl⟩, by decide⟩, ⟨⟨_, rfl⟩, by decide⟩, ⟨⟨_, rfl⟩, by decide⟩, by decide⟩
theorem witness_ProgramCounterHasOnlyItsWriters :
    (∃ t, step ((State.reset.setStatus (.awaitingKey 5)).setKey 0 true) = .next t) ∧
    runs 0x6000 State.reset ∧ runs 0x5330 State.reset ∧ runs 0x1FFF State.reset ∧ runs 0x2FFF State.reset ∧
    runs 0xBFFF (State.reset.setV 0 0xFF) ∧ runs 0x00EE (State.reset.push 0x1000) ∧
    ((∃ f, step (State.reset.setPc 0xFFF) = .fault f) ∧ (State.reset.setPc 0xFFF).nextWord = none) ∧
    ((∃ f, step (next 0x00EE) = .fault f) ∧ (next 0x00EE).nextWord ≠ none) ∧
    Event.timerTick ≠ .step ∧ Event.timerTick ≠ .reset :=
  ⟨⟨_, rfl⟩, ⟨_, rfl⟩, ⟨_, rfl⟩, ⟨_, rfl⟩, ⟨_, rfl⟩, ⟨_, rfl⟩, ⟨_, rfl⟩,
    ⟨⟨_, rfl⟩, by decide⟩, ⟨⟨_, rfl⟩, by decide⟩, by decide, by decide⟩
/-- A state with an empty stack meets the invariant when its memory and `pc` do. -/
theorem inv_of_empty_stack {s : State} (hm : s.mem.wf = true) (hp : s.params.memInit.wf = true)
    (hpc : s.pc.toNat ≤ 0x10FE) (hs : s.stack = []) : s.Inv := by
  refine ⟨hm, hp, hpc, ?_, ?_⟩ <;> simp [hs]
theorem witness_StepKeepsTheInvariant : ((State.resetWith ⟨some 1, false, []⟩).setPc 0xFFF).Inv ∧
    (∃ f, step ((State.resetWith ⟨some 1, false, []⟩).setPc 0xFFF) = .fault f) ∧
    ((State.resetWith ⟨some 1, false, []⟩).withFetchWord 16 0x2FFF).Inv ∧
    (∃ t, step ((State.resetWith ⟨some 1, false, []⟩).withFetchWord 16 0x2FFF) = .next t) :=
  ⟨inv_of_empty_stack (by decide) (by decide) (by decide) rfl, ⟨_, rfl⟩,
    inv_of_empty_stack (by decide) (by decide) (by decide) rfl, ⟨_, rfl⟩⟩
theorem witness_ReachableStatesAreBounded : Params.default.memInit.wf = true ∧
    Reachable Params.default (stateAfter State.reset) :=
  ⟨rfl, .act State.reset .step .reset⟩
theorem witness_ExecuteErrorsChangeNothing : (∃ f, exec .ret State.reset = .fault f) ∧
    ((∃ f, step (State.reset.setPc 0xFFF) = .fault f) ∧ (State.reset.setPc 0xFFF).nextWord = none) ∧
    ((∃ f, step (next 0x00EE) = .fault f) ∧ (next 0x00EE).nextWord ≠ none) :=
  ⟨⟨_, rfl⟩, ⟨⟨_, rfl⟩, by decide⟩, ⟨_, rfl⟩, by decide⟩
theorem witness_InstructionCompletesExactlyWhen :
    completes (.drw 0 0 1) (State.reset.setI 0xFFF) ∧ ¬ completes (.drw 0 0 2) (State.reset.setI 0xFFF) ∧
    completes (.ldB 0) (State.reset.setI 0xFFD) ∧ ¬ completes (.ldB 0) (State.reset.setI 0xFFE) ∧
    completes (.storeRegs 0xF) (State.reset.setI 0xFF0) ∧ ¬ completes (.loadRegs 0xF) (State.reset.setI 0xFF1) ∧
    ¬ completes .ret State.reset :=
  ⟨.inr (by decide), by unfold completes; decide, by unfold completes; decide, by unfold completes; decide,
    by unfold completes; decide, by unfold completes; decide, by unfold completes; decide⟩
theorem witness_MemoryAccessErrorInExactlyFivePlaces :
    (∃ a u, step (State.reset.setPc 0xFFF) = .fault (.memoryAccessError a u)) ∧
    (∃ a u, step ((State.reset.setI 0xFFF).withFetchWord 16 0xD122) = .fault (.memoryAccessError a u)) ∧
    (∃ a u, step ((State.reset.setI 0xFFE).withFetchWord 16 0xF133) = .fault (.memoryAccessError a u)) ∧
    (∃ a u, step ((State.reset.setI 0xFF1).withFetchWord 16 0xFF55) = .fault (.memoryAccessError a u)) ∧
    (∃ a u, step ((State.reset.setI 0xFFF).withFetchWord 16 0xF165) = .fault (.memoryAccessError a u)) :=
  ⟨⟨_, _, rfl⟩, ⟨_, _, rfl⟩, ⟨_, _, rfl⟩, ⟨_, _, rfl⟩, ⟨_, _, rfl⟩⟩
theorem witness_StackUnderflowOnlyByReturnOnEmptyStack : (next 0x00EE).nextInstr = some .ret ∧
    (next 0x00EE).stack = [] := by decide
theorem witness_OtherErrorsOnlyUnderNonDefaultParameters :
    (∃ u, step ((State.resetWith ⟨some 0, false, []⟩).withFetchWord 16 0x2300) = .fault (.stackOverflow u)) ∧
    (∃ w u, step (State.resetWith ⟨none, true, []⟩) = .fault (.unknownInstruction w u)) := ⟨⟨_, rfl⟩, ⟨_, _, rfl⟩⟩
theorem witness_ReturnPopsTheStackIntoPc : (State.reset.push 0x1000).stack = 0x1000 :: [] ∧ State.reset.stack = [] :=
  ⟨rfl, rfl⟩
theorem witness_CallPushesAndJumps :
    (∀ d, State.reset.params.stackDepth = some d → State.reset.stack.length < d) ∧
    (∀ d, ((State.resetWith ⟨some 2, false, []⟩).push 0x202).params.stackDepth = some d →
      ((State.resetWith ⟨some 2, false, []⟩).push 0x202).stack.length < d) ∧
    ((State.resetWith ⟨some 1, false, []⟩).push 0x202).params.stackDepth = some 1 ∧
    1 ≤ ((State.resetWith ⟨some 1, false, []⟩).push 0x202).stack.length := by
  refine ⟨?_, ?_, rfl, by decide⟩
  · intro d h; cases h
  · intro d h; cases h; decide
theorem witness_SkipOnRegisters : (0x1 : Nibble) ≠ 0 ∧ (0xF : Nibble) ≠ 0 ∧
    decode 0x5AB1#16 = .error (.unknownWord 0x5AB1) ∧ decode 0x9ABF#16 = .error (.unknownWord 0x9ABF) :=
  ⟨by decide, by decide, rfl, rfl⟩
theorem witness_skipTaken : skipTaken (.seReg 3 3) State.reset ∧ ¬ skipTaken (.seImm 0 1) State.reset ∧
    ¬ transfersControl (.seImm 0 1) ∧ transfersControl .ret := by
  refine ⟨rfl, ?_, id, trivial⟩
  unfold skipTaken; decide
theorem witness_CallThenReturnRestoresPc : let s := (State.reset.store 0x300 [0x00, 0xEE]).withFetchWord 16 0x2300
    s.nextInstr = some (.call 0x300) ∧ (∃ t, step s = .next t) ∧ (stateAfter s).nextInstr = some .ret :=
  ⟨by decide, ⟨_, rfl⟩, by decide⟩
theorem witness_ParkedProgramStaysPut : (next 0x1200).parked := ⟨0x200, by decide, by decide⟩
theorem witness_AddAndSubtractSetTheFlagLast : (0 : Nibble) ≠ 0xF ∧ (0xE : Nibble) ≠ 0xF := by decide
theorem witness_RandomByteIsMasked : (State.reset.supplyRandom [0xA7]).randIn = 0xA7 :: [] ∧ State.reset.randIn = [] :=
  ⟨rfl, rfl⟩
theorem witness_DecimalDigitsAreStored : State.reset.mem.wf = true ∧ (State.reset.setI 0xFFD).I.toNat + 2 ≤ 4095 ∧
    4095 < (State.reset.setI 0xFFE).I.toNat + 2 := by decide
theorem witness_RegistersAreStored : State.reset.mem.wf = true ∧ (State.reset.setI 0xFFF).I.toNat + (0 : Nibble).toNat ≤ 4095 ∧
    4095 < (State.reset.setI 0xFFF).I.toNat + (1 : Nibble).toNat := by decide
theorem witness_RegistersAreLoaded : (State.reset.setI 0xFF0).I.toNat + (0xF : Nibble).toNat ≤ 4095 ∧
    4095 < (State.reset.setI 0xFF1).I.toNat + (0xF : Nibble).toNat := by decide
-- `Fx55` over both bytes; over the low byte alone, by `x` = 0; over the high byte alone, from below; `Fx33` over both;
-- at the last place a next fetch succeeds.
theorem witness_StoreIsSeenByTheNextFetch :
    (let s := (State.reset.setI 0x202).withFetchWord 16 0xF155;
      s.mem.wf = true ∧ s.pc.toNat + 3 < 4096 ∧ s.nextInstr = some (.storeRegs 1) ∧
        s.I.toNat + (1 : Nibble).toNat ≤ 4095 ∧ s.I.toNat = s.pc.toNat + 2) ∧
    (let s := (State.reset.setI 0x203).withFetchWord 16 0xF055;
      s.nextInstr = some (.storeRegs 0) ∧ s.I.toNat + (0 : Nibble).toNat = s.pc.toNat + 3) ∧
    (let s := (State.reset.setI 0x201).withFetchWord 16 0xF155;
      s.nextInstr = some (.storeRegs 1) ∧ s.I.toNat + (1 : Nibble).toNat = s.pc.toNat + 2) ∧
    (let s := ((State.reset.setPc 0xFFC).setI 0xFFD).withFetchWord 16 0xF133;
      s.mem.wf = true ∧ s.pc.toNat + 3 < 4096 ∧ s.nextInstr = some (.ldB 1) ∧ s.I.toNat + 2 ≤ 4095 ∧
        s.pc.toNat + 2 = s.I.toNat + 1) := by decide
theorem witness_StoreIsSeenByTheNextFetch_load : (State.reset.setPc 0xFFE).mem.wf = true ∧
    (State.reset.setPc 0xFFE).status = .running ∧ (State.reset.setPc 0xFFE).pc.toNat + 1 < 4096 ∧
    (List.replicate 3584 (0xAA : Byte)).length ≤ 3584 := by
  refine ⟨by decide, rfl, by decide, ?_⟩
  rw [List.length_replicate]
theorem witness_PlotTogglesTheWrappedPixel : (0 : BitVec 6).toNat = 64 % 64 ∧ (0 : BitVec 5).toNat = 32 % 32 ∧
    ¬ ((1 : BitVec 6).toNat = 64 % 64 ∧ (0 : BitVec 5).toNat = 32 % 32) := by decide
theorem witness_DrawXorsTheSprite : (State.reset.setI 0xFF1).I.toNat + (0xF : Nibble).toNat - 1 ≤ 4095 ∧
    (0 : Nibble).toNat = 0 ∧ 1 ≤ (0xF : Nibble).toNat ∧
    4095 < (State.reset.setI 0xFF2).I.toNat + (0xF : Nibble).toNat - 1 := by decide
-- X3, X4: bit 7 is column 0 and bit 0 is column 7.
theorem witness_spriteCovers : spriteCovers (sprite 0x80 0x3F 0x1F) 1 2 1 63 31 ∧ spriteBitAt (sprite 0x01 0 0) 0 7 ∧
    ¬ spriteBitAt (sprite 0x01 0 0) 0 0 := by
  refine ⟨⟨0, 0, ?_⟩, ?_, ?_⟩ <;> unfold spriteBitAt <;> decide
theorem witness_DrawSetsTheCollisionFlag : ∃ t, exec (.drw 1 2 1) (sprite 0x80 0x3F 0x1F) = .next t := ⟨_, rfl⟩
theorem witness_DrawTwiceRestoresTheDisplay :
    let s := ((sprite 0xC0 0x3E 0x1F).store 0x202 [0xD1, 0x21]).withFetchWord 16 0xD121
    (1 : Nibble) ≠ 0xF ∧ (2 : Nibble) ≠ 0xF ∧ s.nextInstr = some (.drw 1 2 1) ∧ (∃ t, step s = .next t) ∧
      (stateAfter s).nextInstr = some (.drw 1 2 1) :=
  ⟨by decide, by decide, by decide, ⟨_, rfl⟩, by decide⟩
theorem witness_SkipOnKey : (0xF : Nibble).toNat = ((vv 0xFF 0).getV 1).toNat % 16 := by decide
theorem witness_KeyInstructionEntersTheWait : (next 0xFF0A).nextInstr = some (.ldVxK 0xF) ∧
    (∃ t, step (next 0xFF0A) = .next t) ∧ (∀ k, KeyLatch.isPressed (next 0xFF0A).key k = false) ∧
    KeyLatch.lowestPressed ((next 0xFF0A).setKey 15 true).key = some 15 ∧
    ((next 0xFF0A).setKey 15 true).nextInstr = some (.ldVxK 0xF) ∧
    (∃ t, step ((next 0xFF0A).setKey 15 true) = .next t) :=
  ⟨by decide, ⟨_, rfl⟩, by decide, by decide, by decide, ⟨_, rfl⟩⟩
theorem witness_LoadIsAllOrNothing : State.reset.mem.wf = true ∧ (List.replicate 3584 (0xAA : Byte)).length ≤ 3584 ∧
    3584 < (List.replicate 3585 (0xAA : Byte)).length := by
  refine ⟨rfl, ?_, ?_⟩ <;> simp only [List.length_replicate] <;> decide
theorem witness_KeysChangeOnlyBySetKey : (∀ k p, Event.step ≠ .setKey k p) ∧ Event.step ≠ .reset := by
  refine ⟨?_, ?_⟩
  · intro k p h; cases h
  · decide
theorem witness_FirstStepFetchesAtTheEntryPoint : State.reset.params.memInit.wf = true ∧
    (List.replicate 3582 (0xAA : Byte)).length + 2 ≤ 3584 := by
  refine ⟨rfl, ?_⟩
  rw [List.length_replicate]

end Sys2Proof.Tests
end

/-! What an instruction and a step can do, said once, and the statements of spec/10_state.md settled from it. -/

namespace Sys2Proof.Machine

/-! ### What executing an instruction can answer

`effect` is the state an instruction leaves when it does not raise; `exec_of_completes` and `exec_of_not_completes`
tie it to `exec`. Every later proof splits on `effect` and never unfolds `exec`. -/

/-- The state that an instruction leaves when it completes, `pc` already past it. -/
def effect : Instr → State → State
  | .cls, s => s.setDisp Display.clear
  | .ret, s => { s with pc := s.stack.headD s.pc, stack := s.stack.tail }
  | .jp nnn, s => s.setPc (addrImm nnn)
  | .call nnn, s => (s.push s.pc).setPc (addrImm nnn)
  | .seImm x nn, s => s.skipIf (s.getV x == nn)
  | .sneImm x nn, s => s.skipIf (s.getV x != nn)
  | .seReg x y, s => s.skipIf (s.getV x == s.getV y)
  | .ldImm x nn, s => s.setV x nn
  | .addImm x nn, s => s.setV x (s.getV x + nn)
  | .ldReg x y, s => s.setV x (s.getV y)
  | .orReg x y, s => s.setV x (s.getV x ||| s.getV y)
  | .andReg x y, s => s.setV x (s.getV x &&& s.getV y)
  | .xorReg x y, s => s.setV x (s.getV x ^^^ s.getV y)
  | .addReg x y, s => s.setResultAndFlag x (s.getV x + s.getV y) (carryOf (s.getV x) (s.getV y))
  | .sub x y, s => s.setResultAndFlag x (s.getV x - s.getV y) (noBorrowOf (s.getV x) (s.getV y))
  | .shr x _, s => s.setResultAndFlag x (s.getV x >>> 1) (shiftedOutRight (s.getV x))
  | .subn x y, s => s.setResultAndFlag x (s.getV y - s.getV x) (noBorrowOf (s.getV y) (s.getV x))
  | .shl x _, s => s.setResultAndFlag x (s.getV x <<< 1) (shiftedOutLeft (s.getV x))
  | .sneReg x y, s => s.skipIf (s.getV x != s.getV y)
  | .ldI nnn, s => s.setI (addrImm nnn)
  | .jpV0 nnn, s => s.setPc (addrImm nnn + zext16 (s.getV 0))
  | .rnd x nn, s => s.consumeRandom.setV x (s.randByte &&& nn)
  | .drw x y n, s => (s.setDisp (s.drawSprite x y n).disp).setFlag (s.drawSprite x y n).hit
  | .skp x, s => s.skipIf (s.keyOfRegPressed x)
  | .sknp x, s => s.skipIf (!s.keyOfRegPressed x)
  | .ldVxDT x, s => s.setV x s.DT
  | .ldVxK x, s => s.setStatus (.awaitingKey x)
  | .ldDTVx x, s => s.setDT (s.getV x)
  | .ldSTVx x, s => s.setST (s.getV x)
  | .addI x, s => s.setI (s.I + zext16 (s.getV x))
  | .ldF x, s => s.setI (glyphAddr (s.getV x))
  | .ldB x, s => s.store s.base (bcdDigits (s.getV x))
  | .storeRegs x, s => s.store s.base (s.regRange x)
  | .loadRegs x, s => s.loadRegRange x s.base

theorem stackFull_eq_false_iff (s : State) :
    s.stackFull = false ↔ ∀ d, s.params.stackDepth = some d → s.stack.length < d := by
  unfold State.stackFull
  cases s.params.stackDepth <;> simp

theorem exec_of_completes {i : Instr} {s : State} (h : completes i s) : exec i s = .next (effect i s) := by
  cases i with
  | ret =>
    obtain ⟨a, rest, hs⟩ := List.exists_cons_of_ne_nil h
    simp [exec, execRet, effect, hs]
  | call nnn => simp [exec, execCall, effect, (stackFull_eq_false_iff s).2 h]
  | drw x y n => exact withRange_ok _ _ h
  | ldB x => exact withRange_ok _ _ (.inr h)
  | storeRegs x => exact withRange_ok _ _ (.inr h)
  | loadRegs x => exact withRange_ok _ _ (.inr h)
  | _ => rfl

/-- An instruction that raises hands back the state it started from (R191). -/
theorem exec_of_not_completes {i : Instr} {s : State} (h : ¬ completes i s) :
    ∃ f, exec i s = .fault f ∧ f.after = s := by
  cases i with
  | ret => exact ⟨.stackUnderflow s, by simp [exec, execRet, not_not.1 h], rfl⟩
  | call nnn =>
    have hfull : s.stackFull = true := by simpa [completes, ← stackFull_eq_false_iff] using h
    exact ⟨.stackOverflow s, by simp [exec, execCall, hfull], rfl⟩
  | drw x y n =>
    obtain ⟨hn, hI⟩ := not_or.1 h
    exact ⟨_, withRange_fault _ _ (Nat.pos_of_ne_zero hn) (not_le.1 hI), rfl⟩
  | ldB x => exact ⟨_, withRange_fault _ _ (by decide) (not_le.1 h), rfl⟩
  | storeRegs x => exact ⟨_, withRange_fault _ _ (Nat.succ_pos _) (not_le.1 h), rfl⟩
  | loadRegs x => exact ⟨_, withRange_fault _ _ (Nat.succ_pos _) (not_le.1 h), rfl⟩
  | _ => exact absurd trivial h

theorem exec_eq_next_iff {i : Instr} {s t : State} : exec i s = .next t ↔ completes i s ∧ t = effect i s := by
  by_cases h : completes i s
  · simp [exec_of_completes h, h, eq_comm]
  · obtain ⟨f, hf, -⟩ := exec_of_not_completes h
    simp [hf, h]

theorem exec_fault_after {i : Instr} {s : State} {f : Fault} (h : exec i s = .fault f) : f.after = s := by
  by_cases hc : completes i s
  · simp [exec_of_completes hc] at h
  · obtain ⟨f', hf', ha⟩ := exec_of_not_completes hc
    obtain rfl : f' = f := by simpa [hf'] using h
    exact ha

theorem execUnknown_next {w : Word} {s t : State} (h : execUnknown w s = .next t) : t = s := by
  cases hs : s.params.strictUnknown with
  | false => simpa [execUnknown_default w s hs, eq_comm] using h
  | true => simp [execUnknown_strict w s hs] at h

theorem execUnknown_fault_after {w : Word} {s : State} {f : Fault} (h : execUnknown w s = .fault f) :
    f.after = s := by
  cases hs : s.params.strictUnknown with
  | false => simp [execUnknown_default w s hs] at h
  | true =>
    obtain rfl : Fault.unknownInstruction w s = f := by simpa [execUnknown_strict w s hs] using h
    rfl

/-! ### What a step can answer -/

theorem nextInstr_eq_none_of_decode_error {s : State} {e : Reject} (hd : decode s.fetchWord = .error e) :
    s.nextInstr = none :=
  Option.eq_none_iff_forall_ne_some.2 fun i h => by simp [nextInstr_eq_some, hd] at h

/-- All that a step that returns `Ok` does: a poll of the keyboard, an instruction, or an unknown word passed over. -/
theorem step_next_cases {s t : State} (h : step s = .next t) :
    (∃ r, s.status = .awaitingKey r ∧ t = waitStep r s) ∨
    (∃ i, s.nextInstr = some i ∧ completes i s.advance ∧ t = effect i s.advance) ∨
    (s.canFetch = true ∧ s.nextInstr = none ∧ t = s.advance) := by
  rcases step_cases s with ⟨r, hs, h'⟩ | ⟨-, -, h'⟩ | ⟨i, hs, hf, hd, h'⟩ | ⟨e, -, hf, hd, h'⟩ <;> rw [h'] at h
  · exact .inl ⟨r, hs, by simpa [eq_comm] using h⟩
  · cases h
  · exact .inr (.inl ⟨i, (nextInstr_eq_some s i).2 ⟨hs, hf, hd⟩, exec_eq_next_iff.1 h⟩)
  · exact .inr (.inr ⟨hf, nextInstr_eq_none_of_decode_error hd, execUnknown_next h⟩)

/-- A step that errs has changed nothing but `pc`, and that only when the fetch succeeded (R91, R191). -/
theorem step_fault_cases {s : State} {f : Fault} (h : step s = .fault f) :
    (s.nextWord = none ∧ f.after = s) ∨
    (s.nextWord = some s.fetchWord ∧ s.canFetch = true ∧ f.after = s.advance) := by
  rcases step_cases s with ⟨r, -, h'⟩ | ⟨hs, hf, h'⟩ | ⟨i, hs, hf, -, h'⟩ | ⟨e, hs, hf, -, h'⟩ <;> rw [h'] at h
  · cases h
  · cases h
    exact .inl ⟨(nextWord_eq_none s).2 (.inr hf), rfl⟩
  · exact .inr ⟨(nextWord_eq_some s _).2 ⟨hs, hf, rfl⟩, hf, exec_fault_after h⟩
  · exact .inr ⟨(nextWord_eq_some s _).2 ⟨hs, hf, rfl⟩, hf, execUnknown_fault_after h⟩

/-- All the states a step can leave, by its result or by its error. -/
theorem stepLeaves_cases {s t : State} (h : stepLeaves s t) :
    (∃ r, s.status = .awaitingKey r ∧ t = waitStep r s) ∨
    (∃ i, s.nextInstr = some i ∧ completes i s.advance ∧ t = effect i s.advance) ∨
    (s.canFetch = true ∧ t = s.advance) ∨ t = s := by
  obtain h | ⟨f, h, rfl⟩ := h
  · obtain hw | hi | ⟨hf, -, ht⟩ := step_next_cases h
    · exact .inl hw
    · exact .inr (.inl hi)
    · exact .inr (.inr (.inl ⟨hf, ht⟩))
  · obtain ⟨-, ht⟩ | ⟨-, hf, ht⟩ := step_fault_cases h
    · exact .inr (.inr (.inr ht))
    · exact .inr (.inr (.inl ⟨hf, ht⟩))

theorem canFetch_of_nextInstr {s : State} {i : Instr} (h : s.nextInstr = some i) : s.canFetch = true := by
  obtain ⟨-, hf, -⟩ := (nextInstr_eq_some s i).1 h
  exact hf

/-! ### What an instruction leaves unchanged -/

@[simp] theorem effect_params (i : Instr) (s : State) : (effect i s).params = s.params := by
  cases i <;> simp [effect]

theorem effect_I_eq_or (i : Instr) (s : State) :
    (effect i s).I = s.I ∨ (∃ nnn, i = .ldI nnn) ∨ ∃ x, i = .addI x ∨ i = .ldF x := by
  cases i <;> simp [effect]

theorem effect_status_eq_or (i : Instr) (s : State) :
    (effect i s).status = s.status ∨ ∃ x, i = .ldVxK x ∧ (effect i s).status = .awaitingKey x := by
  cases i <;> simp [effect]

/-- Where the canonical form of memory is kept: only `Fx33` and `Fx55` store, and both stay inside it (R12). -/
theorem effect_mem_wf {i : Instr} {s : State} (hc : completes i s) (hm : s.mem.wf = true) :
    (effect i s).mem.wf = true := by
  cases i with
  | ldB x => exact storeBytes_wf _ hm hc
  | storeRegs x => exact storeBytes_wf _ hm (by rw [regRange_length]; exact hc)
  | _ => simpa [effect] using hm

/-- The stack is kept, popped by `00EE` or pushed by `2nnn`, which leaves room for the new entry (R96, R102). -/
theorem effect_stack_cases {i : Instr} {s : State} (hc : completes i s) :
    (effect i s).stack = s.stack ∨ (effect i s).stack = s.stack.tail ∨
    ((effect i s).stack = s.pc :: s.stack ∧ ∀ d, s.params.stackDepth = some d → s.stack.length < d) := by
  cases i with
  | ret => exact .inr (.inl rfl)
  | call nnn => exact .inr (.inr ⟨rfl, hc⟩)
  | _ => exact .inl (by simp [effect])

/-! ### How `pc` moves -/

theorem effect_pc_of_skipTaken {i : Instr} {s : State} (h : skipTaken i s) : (effect i s).pc = s.pc + 2 := by
  cases i with
  | seImm | sneImm | seReg | sneReg | skp | sknp =>
    simp_all [skipTaken, effect, skipIf_pc, State.keyOfRegPressed]
  | _ => exact h.elim

theorem effect_pc_of_sequential {i : Instr} {s : State} (hs : ¬ skipTaken i s) (ht : ¬ transfersControl i) :
    (effect i s).pc = s.pc := by
  cases i with
  | ret | jp | call | jpV0 => exact absurd trivial ht
  | seImm | sneImm | seReg | sneReg | skp | sknp =>
    simp_all [skipTaken, effect, skipIf_pc, State.keyOfRegPressed]
  | _ => simp [effect]

@[simp] theorem skipTaken_advance (i : Instr) (s : State) : skipTaken i s.advance ↔ skipTaken i s := by
  cases i <;> rfl

/-- `nnn + V0` does not wrap (R107). -/
theorem effect_jpV0_pc_toNat (nnn : Addr12) (s : State) :
    (effect (.jpV0 nnn) s).pc.toNat = nnn.toNat + (s.getV 0).toNat := by
  have hn := nnn.isLt
  have hv := (s.getV 0).isLt
  simp only [effect, setPc_pc, BitVec.toNat_add, addrImm_toNat, zext16_toNat]
  omega

theorem effect_ret_stack {s : State} (h : s.stack ≠ []) :
    s.stack = (effect .ret s).pc :: (effect .ret s).stack := by
  obtain ⟨a, rest, hs⟩ := List.exists_cons_of_ne_nil h
  simp [effect, hs]

/-- `nnn + V0` is the largest target there is: 0xFFF + 0xFF = 0x10FE (R28). -/
theorem effect_pc_le {i : Instr} {s : State} (hc : completes i s) (hpc : s.pc.toNat ≤ 4096)
    (hstk : ∀ e ∈ s.stack, e.toNat ≤ 4096) : (effect i s).pc.toNat ≤ 0x10FE := by
  by_cases ht : transfersControl i
  · cases i with
    | ret =>
      have hmem : (effect .ret s).pc ∈ s.stack := by rw [effect_ret_stack hc]; exact List.mem_cons_self
      exact (hstk _ hmem).trans (by decide)
    | jp nnn => have := nnn.isLt; simp only [effect, setPc_pc, addrImm_toNat]; omega
    | call nnn => have := nnn.isLt; simp only [effect, setPc_pc, addrImm_toNat]; omega
    | jpV0 nnn =>
      have := nnn.isLt
      have := (s.getV 0).isLt
      rw [effect_jpV0_pc_toNat]; omega
    | _ => exact ht.elim
  · by_cases hs : skipTaken i s
    · rw [effect_pc_of_skipTaken hs, BitVec.toNat_add, show (2 : Word).toNat = 2 from rfl]; omega
    · rw [effect_pc_of_sequential hs ht]; omega

/-! ### The invariant (R28, R39) -/

theorem resetWith_inv {p : Params} (hp : p.memInit.wf = true) : (State.resetWith p).Inv :=
  ⟨hp, hp, by simp [State.resetWith], by simp [State.resetWith], by simp [State.resetWith]⟩

theorem waitStep_inv {s : State} (r : Nibble) (h : s.Inv) : (waitStep r s).Inv := by
  obtain ⟨-, ht⟩ | ⟨k, -, ht⟩ := waitStep_cases r s <;> rw [ht] <;> exact h

/-- The fetch needs no bound on `pc` from before: it succeeds only below 4095 and so leaves at most 0x1000 (R91). -/
theorem advance_inv {s : State} (hf : s.canFetch = true) (h : s.Inv) : s.advance.Inv := by
  obtain ⟨hm, hp, -, hstk, hd⟩ := h
  have := (canFetch_iff s).1 hf
  exact ⟨hm, hp, by rw [advance_pc_toNat s hf]; omega, hstk, hd⟩

/-- An instruction keeps the invariant from where the fetch puts `pc`, 2 to 4096: that is the range of the entry
that `2nnn` pushes (R39). -/
theorem effect_inv {i : Instr} {s : State} (hc : completes i s) (h : s.Inv) (hlo : 2 ≤ s.pc.toNat)
    (hhi : s.pc.toNat ≤ 4096) : (effect i s).Inv := by
  obtain ⟨hm, hp, -, hstk, hd⟩ := h
  refine ⟨effect_mem_wf hc hm, by rwa [effect_params], effect_pc_le hc hhi fun e he => (hstk e he).2, ?_, ?_⟩
  · obtain hs | hs | ⟨hs, -⟩ := effect_stack_cases hc <;> rw [hs]
    · exact hstk
    · exact fun e he => hstk e (List.mem_of_mem_tail he)
    · exact List.forall_mem_cons.2 ⟨⟨hlo, hhi⟩, hstk⟩
  · rw [effect_params]
    intro d hd'
    have := hd d hd'
    obtain hs | hs | ⟨hs, hroom⟩ := effect_stack_cases hc <;> rw [hs]
    · exact this
    · rw [List.length_tail]; omega
    · exact hroom d hd'

theorem stepLeaves_inv {s t : State} (h : stepLeaves s t) (hs : s.Inv) : t.Inv := by
  obtain ⟨r, -, rfl⟩ | ⟨i, hi, hc, rfl⟩ | ⟨hf, rfl⟩ | rfl := stepLeaves_cases h
  · exact waitStep_inv r hs
  · have hf := canFetch_of_nextInstr hi
    have hpc := advance_pc_toNat s hf
    have := (canFetch_iff s).1 hf
    exact effect_inv hc (advance_inv hf hs) (by omega) (by omega)
  · exact advance_inv hf hs
  · exact hs

/-- Settles O14: every state a step leaves, by its result or by its error, meets the invariant. -/
theorem stepKeepsTheInvariant : Obligations.StepKeepsTheInvariant :=
  fun _ hs => ⟨fun _ ht => stepLeaves_inv (.inl ht) hs, fun f hf => stepLeaves_inv (.inr ⟨f, hf, rfl⟩) hs⟩

/-- Settles O15: reset under the default parameters, whose memory is empty. -/
theorem resetMeetsTheInvariant : Obligations.ResetMeetsTheInvariant := resetWith_inv rfl

/-! ### The parameters, `I` and `STATUS` (R29, R31, R36) -/

theorem waitStep_params (r : Nibble) (s : State) : (waitStep r s).params = s.params := by
  obtain ⟨-, ht⟩ | ⟨k, -, ht⟩ := waitStep_cases r s <;> simp [ht]

theorem waitStep_I (r : Nibble) (s : State) : (waitStep r s).I = s.I := by
  obtain ⟨-, ht⟩ | ⟨k, -, ht⟩ := waitStep_cases r s <;> simp [ht]

theorem waitStep_pc (r : Nibble) (s : State) : (waitStep r s).pc = s.pc := by
  obtain ⟨-, ht⟩ | ⟨k, -, ht⟩ := waitStep_cases r s <;> simp [ht]

/-- The resume step: only a pressed key ends the wait (R93). -/
theorem waitStep_status_eq_or (r : Nibble) (s : State) :
    (waitStep r s).status = s.status ∨
    ∃ k, KeyLatch.isPressed s.key k = true ∧ (waitStep r s).status = .running := by
  obtain ⟨-, ht⟩ | ⟨k, hk, ht⟩ := waitStep_cases r s <;> rw [ht]
  · exact .inl rfl
  · exact .inr ⟨k, ((lowestPressed_some s.key k).1 hk).1, rfl⟩

theorem stepLeaves_params {s t : State} (h : stepLeaves s t) : t.params = s.params := by
  obtain ⟨r, -, rfl⟩ | ⟨i, -, -, rfl⟩ | ⟨-, rfl⟩ | rfl := stepLeaves_cases h
  · exact waitStep_params r s
  · rw [effect_params, advance_params]
  · rfl
  · rfl

theorem stepLeaves_I_writer {s t : State} (h : stepLeaves s t) (hI : t.I ≠ s.I) :
    (∃ nnn, s.nextInstr = some (.ldI nnn)) ∨
    ∃ x, s.nextInstr = some (.addI x) ∨ s.nextInstr = some (.ldF x) := by
  obtain ⟨r, -, rfl⟩ | ⟨i, hi, -, rfl⟩ | ⟨-, rfl⟩ | rfl := stepLeaves_cases h
  · exact absurd (waitStep_I r s) hI
  · obtain hsame | ⟨nnn, rfl⟩ | ⟨x, rfl | rfl⟩ := effect_I_eq_or i s.advance
    · exact absurd hsame hI
    · exact .inl ⟨nnn, hi⟩
    · exact .inr ⟨x, .inl hi⟩
    · exact .inr ⟨x, .inr hi⟩
  · exact absurd rfl hI
  · exact absurd rfl hI

theorem stepLeaves_status_writer {s t : State} (h : stepLeaves s t) (hst : t.status ≠ s.status) :
    (∃ x, s.nextInstr = some (.ldVxK x) ∧ t.status = .awaitingKey x) ∨
    ∃ r k, s.status = .awaitingKey r ∧ KeyLatch.isPressed s.key k = true ∧ t.status = .running := by
  obtain ⟨r, hr, rfl⟩ | ⟨i, hi, -, rfl⟩ | ⟨-, rfl⟩ | rfl := stepLeaves_cases h
  · obtain hsame | ⟨k, hk, hrun⟩ := waitStep_status_eq_or r s
    · exact absurd hsame hst
    · exact .inr ⟨r, k, hr, hk, hrun⟩
  · obtain hsame | ⟨x, rfl, hx⟩ := effect_status_eq_or i s.advance
    · exact absurd hsame hst
    · exact .inl ⟨x, hi, hx⟩
  · exact absurd rfl hst
  · exact absurd rfl hst

/-- Settles O12: the three clauses, each over all the states a step can leave. -/
theorem indexAndStatusHaveOnlyTheirWriters : Obligations.IndexAndStatusHaveOnlyTheirWriters :=
  fun _ _ h => ⟨stepLeaves_I_writer h, stepLeaves_status_writer h, stepLeaves_params h⟩

/-! ### The program counter (R26) -/

/-- `step_next_cases` where the next instruction is known. -/
theorem step_next_of_nextInstr {s t : State} {i : Instr} (h : step s = .next t) (hi : s.nextInstr = some i) :
    completes i s.advance ∧ t = effect i s.advance :=
  exec_eq_next_iff.1 ((step_of_nextInstr hi).symm.trans h)

theorem step_pc_of_skipTaken {s t : State} {i : Instr} (h : step s = .next t) (hi : s.nextInstr = some i)
    (hs : skipTaken i s) : t.pc.toNat = s.pc.toNat + 4 := by
  obtain ⟨-, rfl⟩ := step_next_of_nextInstr h hi
  have hf := canFetch_of_nextInstr hi
  have := (canFetch_iff s).1 hf
  rw [effect_pc_of_skipTaken ((skipTaken_advance i s).2 hs), BitVec.toNat_add, advance_pc_toNat s hf,
    show (2 : Word).toNat = 2 from rfl]
  omega

/-- Also where the word fetched is an unknown one. -/
theorem step_pc_of_sequential {s t : State} (hrun : s.status = .running) (h : step s = .next t)
    (hseq : ∀ i, s.nextInstr = some i → ¬ skipTaken i s ∧ ¬ transfersControl i) :
    t.pc.toNat = s.pc.toNat + 2 := by
  obtain ⟨r, hr, -⟩ | ⟨i, hi, -, rfl⟩ | ⟨hf, -, rfl⟩ := step_next_cases h
  · simp [hrun] at hr
  · obtain ⟨hs, ht⟩ := hseq i hi
    rw [effect_pc_of_sequential (mt (skipTaken_advance i s).1 hs) ht,
      advance_pc_toNat s (canFetch_of_nextInstr hi)]
  · exact advance_pc_toNat s hf

theorem step_fault_pc {s : State} {f : Fault} (h : step s = .fault f) :
    (s.nextWord = none → f.after.pc = s.pc) ∧ (s.nextWord ≠ none → f.after.pc.toNat = s.pc.toNat + 2) := by
  obtain ⟨hw, ha⟩ | ⟨hw, hf, ha⟩ := step_fault_cases h
  · exact ⟨fun _ => by rw [ha], fun hne => absurd hw hne⟩
  · exact ⟨fun hnone => by simp [hw] at hnone, fun _ => by rw [ha, advance_pc_toNat s hf]⟩

/-- A load stores an image or changes nothing (R167). -/
theorem act_load_cases (s : State) (bytes : List Byte) :
    (bytes.length ≤ 3584 ∧ (Event.load bytes).act s = s.store 0x200 bytes) ∨ (Event.load bytes).act s = s := by
  obtain ⟨hl, h⟩ | ⟨-, h⟩ := load_cases s bytes
  · exact .inl ⟨hl, by simp [Event.act, h]⟩
  · exact .inr (by simp [Event.act, h])

theorem act_pc {s : State} {e : Event} (hstep : e ≠ .step) (hreset : e ≠ .reset) : (e.act s).pc = s.pc := by
  cases e with
  | step => exact absurd rfl hstep
  | reset => exact absurd rfl hreset
  | load bytes => obtain ⟨-, h⟩ | h := act_load_cases s bytes <;> rw [h]; rfl
  | setKey k pressed => rfl
  | timerTick => rfl
  | supplyRandom bytes => rfl

/-- Settles O13: the wait, each kind of instruction after a fetch, the two kinds of error, the host operations. -/
theorem programCounterHasOnlyItsWriters : Obligations.ProgramCounterHasOnlyItsWriters := by
  refine ⟨fun s t r hs h => ?_, fun s t hrun h => ⟨fun nnn hi => ?_, fun nnn hi => ?_, fun hi => ?_,
    fun i hi hs => step_pc_of_skipTaken h hi hs, step_pc_of_sequential hrun h⟩, fun _ _ => step_fault_pc,
    fun _ _ => act_pc⟩
  · obtain rfl : waitStep r s = t := by simpa [step_awaiting hs] using h
    exact waitStep_pc r s
  · obtain hi | hi := hi <;> obtain ⟨-, rfl⟩ := step_next_of_nextInstr h hi <;> exact addrImm_toNat nnn
  · obtain ⟨-, rfl⟩ := step_next_of_nextInstr h hi
    exact effect_jpV0_pc_toNat nnn s.advance
  · obtain ⟨hne, rfl⟩ := step_next_of_nextInstr h hi
    exact effect_ret_stack hne

/-! ### Reachable states (R28, R36, R39, R165) -/

/-- The host goes on from a state that the step leaves (R192). No step is refused, but that is not needed here. -/
theorem stateAfter_eq_or_stepLeaves (s : State) : stateAfter s = s ∨ stepLeaves s (stateAfter s) := by
  unfold stateAfter
  cases h : step s with
  | next t => exact .inr (.inl h)
  | fault f => exact .inr (.inr ⟨f, h, rfl⟩)
  | refused r => exact .inl rfl

theorem act_params (s : State) (e : Event) : (e.act s).params = s.params := by
  cases e with
  | step =>
    obtain h | h := stateAfter_eq_or_stepLeaves s
    · exact congrArg State.params h
    · exact stepLeaves_params h
  | load bytes => obtain ⟨-, h⟩ | h := act_load_cases s bytes <;> rw [h]; rfl
  | _ => rfl

theorem act_inv {s : State} (e : Event) (h : s.Inv) : (e.act s).Inv := by
  cases e with
  | step =>
    obtain hs | hs := stateAfter_eq_or_stepLeaves s
    · rwa [← hs] at h
    · exact stepLeaves_inv hs h
  | reset =>
    obtain ⟨-, hp, -⟩ := h
    exact resetWith_inv hp
  | load bytes =>
    obtain ⟨hl, ht⟩ | ht := act_load_cases s bytes <;> rw [ht]
    · obtain ⟨hm, hrest⟩ := h
      exact ⟨storeBytes_wf bytes hm (by omega), hrest⟩
    · exact h
  | setKey k pressed => exact h
  | timerTick => exact h
  | supplyRandom bytes => exact h

/-- The invariant holds at reset and every event keeps it, so it holds of every reachable state. -/
theorem reachable_inv {p : Params} {s : State} (hp : p.memInit.wf = true) (h : Reachable p s) :
    s.Inv ∧ s.params = p := by
  induction h with
  | reset => exact ⟨resetWith_inv hp, rfl⟩
  | act s e _ ih =>
    obtain ⟨hinv, hparams⟩ := ih
    exact ⟨act_inv e hinv, (act_params s e).trans hparams⟩

/-- Settles O16: from the invariant; a canonical memory lists nothing outside the 4096 bytes. -/
theorem reachableStatesAreBounded : Obligations.ReachableStatesAreBounded := by
  intro p s hp h
  obtain ⟨⟨hm, -, hpc, hstk, -⟩, hparams⟩ := reachable_inv hp h
  exact ⟨hpc, hstk, hm, fun a ha => read_outside hm ha, hparams⟩

/-! ### Reset (R38, R166, R210) -/

theorem pixelAt_clear (x : BitVec 6) (y : BitVec 5) : Display.pixelAt Display.clear x y = false :=
  (pixelAt_eq_wrapped _ x y).trans (wrapped_clear _ _)

theorem resetWith_atReset (p : Params) : atReset (State.resetWith p) :=
  ⟨rfl, fun k => by simp [State.getV, State.resetWith], rfl, rfl, rfl, rfl, rfl, fun _ => rfl, pixelAt_clear,
    fun k => by simp [KeyLatch.isPressed, State.resetWith]⟩

/-- Settles O55: `reset` is `resetWith` under the state's own parameters, but for the random input, which no
component at reset mentions. -/
theorem resetValues : Obligations.ResetValues :=
  ⟨fun s => ⟨resetWith_atReset s.params, rfl, rfl, rfl⟩, fun p => ⟨resetWith_atReset p, rfl⟩,
    resetWith_atReset Params.default, rfl, rfl, fun _ => rfl⟩

end Sys2Proof.Machine

/-! The fetch (spec/20_memory.md R50) and what memory holds after a store, as the next fetch sees it (R65). -/

namespace Sys2Proof.Machine

/-! ### The fetch moves `pc` alone (R50, R91) -/

theorem setPc_onlyChanges (s : State) (w : Word) : onlyChanges [.pc] s (s.setPc w) := by
  intro p hp
  cases p with
  | pc => exact absurd List.mem_cons_self hp
  | V | mem | key => exact fun _ => rfl
  | disp => exact fun _ _ => rfl
  | random => exact ⟨rfl, rfl⟩
  | I | DT | ST | status | stack | params => rfl

/-- Settles O5: the word is big-endian, `advance` sets `pc` alone, and a known next word is executed. -/
theorem stepRunsTheDecodedInstruction : Obligations.StepRunsTheDecodedInstruction := by
  intro s hrun hpc
  have hf := (canFetch_iff s).2 hpc
  exact ⟨wordOfBytes_toNat _ _, advance_pc_toNat s hf, setPc_onlyChanges s _,
    fun i hd => step_of_nextInstr ((nextInstr_eq_some s i).2 ⟨hrun, hf, hd⟩)⟩

/-- A running engine fetches the two bytes that memory holds at `pc`. -/
theorem fetchesNext_read {t : State} (hrun : t.status = .running) (hpc : t.pc.toNat + 1 < 4096) :
    fetchesNext t (t.mem.read t.pc.toNat) (t.mem.read (t.pc.toNat + 1)) :=
  ⟨t.fetchWord, (nextWord_eq_some t _).2 ⟨hrun, (canFetch_iff t).2 hpc, rfl⟩, wordOfBytes_toNat _ _⟩

/-! ### What memory holds after an instruction and after a load (R133, R134, R167) -/

theorem bcdDigits_toNat (v : Byte) :
    (bcdDigits v)[0].toNat = v.toNat / 100 ∧ (bcdDigits v)[1].toNat = v.toNat / 10 % 10 ∧
    (bcdDigits v)[2].toNat = v.toNat % 10 := by
  have := v.isLt
  simp only [bcdDigits, List.getElem_cons_zero, List.getElem_cons_succ, BitVec.toNat_ofNat]
  omega

/-- After any instruction that completes, every address holds the byte that `holdsAfter` says. -/
theorem holdsAfter_effect {i : Instr} {s : State} (hm : s.mem.wf = true) (hc : completes i s) (a : Nat) :
    holdsAfter s a ((effect i s).mem.read a) i := by
  cases i with
  | storeRegs x =>
    have hlen := regRange_length s x
    refine ⟨?_, fun ha => read_storeBytes_out _ _ _ _ (by rw [hlen]; exact ha)⟩
    rintro k hk rfl
    have hk' : k.toNat < (s.regRange x).length := by omega
    exact (read_storeBytes_in _ hm (by rw [hlen]; exact hc) _ hk').trans (regRange_get s x k hk')
  | ldB x =>
    obtain ⟨hundreds, tens, ones⟩ := bcdDigits_toNat (s.getV x)
    have hread := read_storeBytes_in (bcdDigits (s.getV x)) hm hc
    refine ⟨?_, ?_, ?_, fun ha => read_storeBytes_out _ _ _ _ ha⟩
    · rintro rfl
      exact (congrArg BitVec.toNat (hread 0 (by simp))).trans hundreds
    · rintro rfl
      exact (congrArg BitVec.toNat (hread 1 (by simp))).trans tens
    · rintro rfl
      exact (congrArg BitVec.toNat (hread 2 (by simp))).trans ones
  | _ => simp [holdsAfter, effect]

@[simp] theorem holdsAfter_advance (s : State) (a : Nat) (b : Byte) (i : Instr) :
    holdsAfter s.advance a b i ↔ holdsAfter s a b i := by
  cases i <;> rfl

theorem holdsAfterLoad_store {s : State} {bytes : List Byte} (hm : s.mem.wf = true) (hl : bytes.length ≤ 3584)
    (a : Nat) : holdsAfterLoad s bytes a ((s.store 0x200 bytes).mem.read a) := by
  refine ⟨?_, read_storeBytes_out bytes s.mem 0x200 a⟩
  rintro k rfl hk
  exact read_storeBytes_in bytes hm (by omega) k hk

/-! ### A store is seen by the next fetch (R65, R217) -/

/-- The next fetch after an instruction that goes on in sequence, and does not begin a wait for a key, reads what
memory holds once that instruction is executed. -/
theorem next_fetch_holdsAfter {s : State} {i : Instr} (hm : s.mem.wf = true) (hpc : s.pc.toNat + 3 < 4096)
    (hi : s.nextInstr = some i) (hc : completes i s.advance) (hseq : (effect i s.advance).pc = s.advance.pc)
    (hstatus : (effect i s.advance).status = s.status) :
    ∃ t hi lo, step s = .next t ∧ fetchesNext t hi lo ∧
      holdsAfter s (s.pc.toNat + 2) hi i ∧ holdsAfter s (s.pc.toNat + 3) lo i := by
  obtain ⟨hrun, hf, -⟩ := (nextInstr_eq_some s i).1 hi
  have hpc' : (effect i s.advance).pc.toNat = s.pc.toNat + 2 := by rw [hseq, advance_pc_toNat s hf]
  have hholds (a : Nat) := (holdsAfter_advance s a _ i).1 (holdsAfter_effect (s := s.advance) hm hc a)
  have hnext := fetchesNext_read (hstatus.trans hrun) (by omega)
  rw [hpc'] at hnext
  exact ⟨_, _, _, (step_of_nextInstr hi).trans (exec_of_completes hc), hnext, hholds _, hholds _⟩

theorem load_fetch_holdsAfterLoad {s : State} {bytes : List Byte} (hm : s.mem.wf = true)
    (hrun : s.status = .running) (hpc : s.pc.toNat + 1 < 4096) (hl : bytes.length ≤ 3584) :
    ∃ t hi lo, s.load bytes = .ok t ∧ fetchesNext t hi lo ∧
      holdsAfterLoad s bytes s.pc.toNat hi ∧ holdsAfterLoad s bytes (s.pc.toNat + 1) lo := by
  obtain ⟨-, hload⟩ | ⟨htoo, -⟩ := load_cases s bytes
  · exact ⟨_, _, _, hload, fetchesNext_read hrun hpc, holdsAfterLoad_store hm hl _, holdsAfterLoad_store hm hl _⟩
  · omega

/-- Settles O42: `Fx55` and `Fx33` go on in sequence and keep the status; the load stores the image at 0x200. -/
theorem storeIsSeenByTheNextFetch : Obligations.StoreIsSeenByTheNextFetch := by
  refine ⟨?_, fun s bytes => load_fetch_holdsAfterLoad⟩
  rintro s x i hm hpc hi (⟨rfl, hI⟩ | ⟨rfl, hI⟩)
  · exact next_fetch_holdsAfter hm hpc hi (Nat.succ_le_succ hI) rfl rfl
  · exact next_fetch_holdsAfter hm hpc hi (Nat.succ_le_succ hI) rfl rfl

end Sys2Proof.Machine

/-! The decoder and the encoder against each other and against the opcode map, and the statements of
spec/30_encoding.md settled from it (R70 to R77). -/

namespace Sys2Proof

/-! ### A word from the fields that its class fixes (R71, R72) -/

section
variable {w : Word} {c n : Nibble} {nn : Byte} {nnn : Addr12}

theorem formatNNN_eq_word (hc : fieldClass w = c) (hnnn : fieldNNN w = nnn) : formatNNN c nnn = w := by
  rw [← hc, ← hnnn, formatNNN_fields]

theorem formatXNN_eq_word (hc : fieldClass w = c) (hnn : fieldNN w = nn) : formatXNN c (fieldX w) nn = w := by
  rw [← hc, ← hnn, formatXNN_fields]

theorem formatXYN_eq_word (hc : fieldClass w = c) (hn : fieldN w = n) :
    formatXYN c (fieldX w) (fieldY w) n = w := by
  rw [← hc, ← hn, formatXYN_fields]

end

theorem encode_cls : encode .cls = formatNNN 0x0 0x0E0 := rfl

theorem encode_ret : encode .ret = formatNNN 0x0 0x0EE := rfl

/-! ### What the decoder can answer (R75) -/

/-- A decoder's answer for `w` is right when it says that `w` is unknown or gives an instruction whose word is `w`. -/
def AnswersFor (w : Word) (a : Except Reject Instr) : Prop :=
  a = .error (.unknownWord w) ∨ ∃ i, a = .ok i ∧ encode i = w

section
variable {w : Word}

theorem answersFor_unknown : AnswersFor w (.error (.unknownWord w)) := .inl rfl

theorem answersFor_ok {i : Instr} (h : encode i = w) : AnswersFor w (.ok i) := .inr ⟨i, rfl, h⟩

theorem decodeClass0_answersFor (hc : fieldClass w = 0x0) : AnswersFor w (decodeClass0 w) := by
  unfold decodeClass0
  split
  case h_1 hnnn => exact answersFor_ok (encode_cls.trans (formatNNN_eq_word hc hnnn))
  case h_2 hnnn => exact answersFor_ok (encode_ret.trans (formatNNN_eq_word hc hnnn))
  case h_3 => exact answersFor_unknown

theorem decodeClass5_answersFor (hc : fieldClass w = 0x5) : AnswersFor w (decodeClass5 w) := by
  unfold decodeClass5
  split
  case h_1 hn => exact answersFor_ok (formatXYN_eq_word hc hn)
  case h_2 => exact answersFor_unknown

theorem decodeClass8_answersFor (hc : fieldClass w = 0x8) : AnswersFor w (decodeClass8 w) := by
  unfold decodeClass8
  split
  case h_10 => exact answersFor_unknown
  all_goals exact answersFor_ok (formatXYN_eq_word hc ‹_›)

theorem decodeClass9_answersFor (hc : fieldClass w = 0x9) : AnswersFor w (decodeClass9 w) := by
  unfold decodeClass9
  split
  case h_1 hn => exact answersFor_ok (formatXYN_eq_word hc hn)
  case h_2 => exact answersFor_unknown

theorem decodeClassE_answersFor (hc : fieldClass w = 0xE) : AnswersFor w (decodeClassE w) := by
  unfold decodeClassE
  split
  case h_3 => exact answersFor_unknown
  all_goals exact answersFor_ok (formatXNN_eq_word hc ‹_›)

theorem decodeClassF_answersFor (hc : fieldClass w = 0xF) : AnswersFor w (decodeClassF w) := by
  unfold decodeClassF
  split
  case h_10 => exact answersFor_unknown
  all_goals exact answersFor_ok (formatXNN_eq_word hc ‹_›)

end

theorem decode_answersFor (w : Word) : AnswersFor w (decode w) := by
  unfold decode
  split
  case h_1 hc => exact decodeClass0_answersFor hc
  case h_6 hc => exact decodeClass5_answersFor hc
  case h_9 hc => exact decodeClass8_answersFor hc
  case h_10 hc => exact decodeClass9_answersFor hc
  case h_15 hc => exact decodeClassE_answersFor hc
  case h_16 hc => exact decodeClassF_answersFor hc
  case h_2 hc | h_3 hc | h_11 hc | h_12 hc => exact answersFor_ok (formatNNN_eq_word hc rfl)
  case h_4 hc | h_5 hc | h_7 hc | h_8 hc | h_13 hc => exact answersFor_ok (formatXNN_eq_word hc rfl)
  case h_14 hc => exact answersFor_ok (formatXYN_eq_word hc rfl)
  case h_17 => exact answersFor_unknown

/-! ### The round trip (R71, R72, R74) -/

theorem encode_of_decode {w : Word} {i : Instr} (h : decode w = .ok i) : encode i = w := by
  obtain hu | ⟨j, hj, hw⟩ := decode_answersFor w
  · cases h.symm.trans hu
  · cases h.symm.trans hj
    exact hw

/-- The class and the discriminant that `encode` writes lead the decoder back to the instruction, and the fields of
the format are its operands. -/
theorem decode_encode (i : Instr) : decode (encode i) = .ok i := by
  cases i
  case cls | ret => rfl
  all_goals simp [encode, decode, decodeClass5, decodeClass8, decodeClass9, decodeClassE, decodeClassF]

theorem decodeBytes_encodeBytes (i : Instr) (rest : List Byte) :
    decodeBytes (encodeBytes i ++ rest) = .ok (i, rest) := by
  rw [encodeBytes, decodeBytes_bytesOfWord, decode_encode]

/-- Settles O1: `decode_encode` for words and bytes; the converse since every answer of the decoder is `AnswersFor`. -/
theorem decodeEncodeRoundTrip : Obligations.DecodeEncodeRoundTrip :=
  ⟨decode_encode, decodeBytes_encodeBytes, fun _ _ => encode_of_decode⟩

/-! ### The unknown words of each class (R77) -/

section
variable (w : Word)

theorem decodeClass0_eq_unknown_iff :
    decodeClass0 w = .error (.unknownWord w) ↔ fieldNNN w ≠ 0x0E0 ∧ fieldNNN w ≠ 0x0EE := by
  unfold decodeClass0
  split <;> simp_all

theorem decodeClass5_eq_unknown_iff : decodeClass5 w = .error (.unknownWord w) ↔ fieldN w ≠ 0 := by
  unfold decodeClass5
  split <;> simp_all

/-- R75 names the discriminants of class 8 that are instructions, R77 those that are not. -/
theorem class8_discriminants : ∀ n : Nibble, n ∈ [0x8, 0x9, 0xA, 0xB, 0xC, 0xD, 0xF] ↔
    n ∉ [0x0, 0x1, 0x2, 0x3, 0x4, 0x5, 0x6, 0x7, 0xE] := by decide

theorem decodeClass8_eq_unknown_iff :
    decodeClass8 w = .error (.unknownWord w) ↔ fieldN w ∈ [0x8, 0x9, 0xA, 0xB, 0xC, 0xD, 0xF] := by
  rw [class8_discriminants]
  unfold decodeClass8
  split <;> simp_all

theorem decodeClass9_eq_unknown_iff : decodeClass9 w = .error (.unknownWord w) ↔ fieldN w ≠ 0 := by
  unfold decodeClass9
  split <;> simp_all

theorem decodeClassE_eq_unknown_iff :
    decodeClassE w = .error (.unknownWord w) ↔ fieldNN w ∉ [0x9E, 0xA1] := by
  unfold decodeClassE
  split <;> simp_all

theorem decodeClassF_eq_unknown_iff : decodeClassF w = .error (.unknownWord w) ↔
    fieldNN w ∉ [0x07, 0x0A, 0x15, 0x18, 0x1E, 0x29, 0x33, 0x55, 0x65] := by
  unfold decodeClassF
  split <;> simp_all

end

/-- The sixteen classes are all there are: `decode`'s last arm is never taken. -/
theorem class_exhausted : ∀ c : Nibble, c ∈ [0x0#4, 0x1#4, 0x2#4, 0x3#4, 0x4#4, 0x5#4, 0x6#4, 0x7#4,
    0x8#4, 0x9#4, 0xA#4, 0xB#4, 0xC#4, 0xD#4, 0xE#4, 0xF#4] := by decide

/-- Settles O3: class by class; only the six classes with a discriminant have unknown words. -/
theorem unknownWordsAreExactlyTheListedOnes : Obligations.UnknownWordsAreExactlyTheListedOnes := by
  intro w
  unfold decode
  split
  case h_1 hc => simp [hc, decodeClass0_eq_unknown_iff]
  case h_6 hc => simp [hc, decodeClass5_eq_unknown_iff]
  case h_9 hc => simp [hc, decodeClass8_eq_unknown_iff]
  case h_10 hc => simp [hc, decodeClass9_eq_unknown_iff]
  case h_15 hc => simp [hc, decodeClassE_eq_unknown_iff]
  case h_16 hc => simp [hc, decodeClassF_eq_unknown_iff]
  case h_17 => exact absurd (class_exhausted (fieldClass w)) (by simp_all)
  case h_2 hc | h_3 hc | h_4 hc | h_5 hc | h_7 hc | h_8 hc | h_11 hc | h_12 hc | h_13 hc | h_14 hc => simp [hc]

/-! ### The rows of the opcode map (R74) -/

theorem opcodeMap_nums : opcodeMap.map OpRow.num = List.range' 1 34 := rfl

theorem row_eq_of_num_eq {r r' : OpRow} (hr : r ∈ opcodeMap) (hr' : r' ∈ opcodeMap) (h : r.num = r'.num) :
    r = r' :=
  List.inj_on_of_nodup_map (opcodeMap_nums ▸ List.nodup_range') hr hr' h

/-- Two rows whose matches agree under both masks are one row. -/
theorem rows_conflict : ∀ r ∈ opcodeMap, ∀ r' ∈ opcodeMap,
    r.mtch &&& r'.mask = r'.mtch &&& r.mask → r.num = r'.num := by decide

theorem OpRow.selects_iff (r : OpRow) (w : Word) : r.selects w = true ↔ w &&& r.mask = r.mtch := by
  simp [OpRow.selects]

theorem row_eq_of_selects {r r' : OpRow} {w : Word} (hr : r ∈ opcodeMap) (hr' : r' ∈ opcodeMap)
    (h : r.selects w = true) (h' : r'.selects w = true) : r = r' := by
  rw [OpRow.selects_iff] at h h'
  have hagree : r.mtch &&& r'.mask = r'.mtch &&& r.mask := by
    rw [← h, ← h', BitVec.and_assoc, BitVec.and_assoc, BitVec.and_comm r.mask]
  exact row_eq_of_num_eq hr hr' (rows_conflict r hr r' hr' hagree)

theorem ownRow : ∀ i, Laws.OwnRow.Statement i
  | .cls => Laws.OwnRow.cls
  | .ret => Laws.OwnRow.ret
  | .jp nnn => Laws.OwnRow.jp nnn
  | .call nnn => Laws.OwnRow.call nnn
  | .seImm x nn => Laws.OwnRow.seImm x nn
  | .sneImm x nn => Laws.OwnRow.sneImm x nn
  | .seReg x y => Laws.OwnRow.seReg x y
  | .ldImm x nn => Laws.OwnRow.ldImm x nn
  | .addImm x nn => Laws.OwnRow.addImm x nn
  | .ldReg x y => Laws.OwnRow.ldReg x y
  | .orReg x y => Laws.OwnRow.orReg x y
  | .andReg x y => Laws.OwnRow.andReg x y
  | .xorReg x y => Laws.OwnRow.xorReg x y
  | .addReg x y => Laws.OwnRow.addReg x y
  | .sub x y => Laws.OwnRow.sub x y
  | .shr x y => Laws.OwnRow.shr x y
  | .subn x y => Laws.OwnRow.subn x y
  | .shl x y => Laws.OwnRow.shl x y
  | .sneReg x y => Laws.OwnRow.sneReg x y
  | .ldI nnn => Laws.OwnRow.ldI nnn
  | .jpV0 nnn => Laws.OwnRow.jpV0 nnn
  | .rnd x nn => Laws.OwnRow.rnd x nn
  | .drw x y n => Laws.OwnRow.drw x y n
  | .skp x => Laws.OwnRow.skp x
  | .sknp x => Laws.OwnRow.sknp x
  | .ldVxDT x => Laws.OwnRow.ldVxDT x
  | .ldVxK x => Laws.OwnRow.ldVxK x
  | .ldDTVx x => Laws.OwnRow.ldDTVx x
  | .ldSTVx x => Laws.OwnRow.ldSTVx x
  | .addI x => Laws.OwnRow.addI x
  | .ldF x => Laws.OwnRow.ldF x
  | .ldB x => Laws.OwnRow.ldB x
  | .storeRegs x => Laws.OwnRow.storeRegs x
  | .loadRegs x => Laws.OwnRow.loadRegs x

theorem selects_iff_num_eq {w : Word} {i : Instr} (h : decode w = .ok i) {r : OpRow} (hr : r ∈ opcodeMap) :
    r.selects w = true ↔ r.num = i.rowNumber := by
  obtain ⟨own, hown, hnum, hsel⟩ := ownRow i
  rw [encode_of_decode h] at hsel
  rw [← hnum]
  constructor
  · intro hr_sel
    exact congrArg OpRow.num (row_eq_of_selects hr hown hr_sel hsel)
  · intro hr_num
    rwa [row_eq_of_num_eq hr hown hr_num]

/-! ### The words that no row selects (R74, R75, R77) -/

/-- Where a row's mask covers a field, the words the row selects have that field of its match. -/
theorem field_eq_of_selects {r : OpRow} {w : Word} (h : r.selects w = true) {j l : Nat}
    (hmask : r.mask.extractLsb' j l = BitVec.allOnes l) : w.extractLsb' j l = r.mtch.extractLsb' j l := by
  rw [← (r.selects_iff w).1 h, BitVec.extractLsb'_and, hmask, BitVec.and_allOnes]

/-- Every row's mask covers the class and the class's discriminant of R75. -/
theorem mask_covers_discriminant : ∀ r ∈ opcodeMap, fieldClass r.mask = 0xF ∧
    (fieldClass r.mtch = 0x0 → fieldNNN r.mask = 0xFFF) ∧
    (fieldClass r.mtch ∈ [0x5, 0x8, 0x9] → fieldN r.mask = 0xF) ∧
    (fieldClass r.mtch ∈ [0xE, 0xF] → fieldNN r.mask = 0xFF) := by decide

theorem mtch_known : ∀ r ∈ opcodeMap, decode r.mtch ≠ .error (.unknownWord r.mtch) := by
  decide

/-- Whether a word is unknown depends on its class and on the class's discriminant alone (R75, R77). -/
theorem unknown_congr {w v : Word} (hclass : fieldClass w = fieldClass v)
    (hnnn : fieldClass v = 0x0 → fieldNNN w = fieldNNN v)
    (hn : fieldClass v ∈ [0x5, 0x8, 0x9] → fieldN w = fieldN v)
    (hnn : fieldClass v ∈ [0xE, 0xF] → fieldNN w = fieldNN v) :
    decode w = .error (.unknownWord w) ↔ decode v = .error (.unknownWord v) := by
  rw [unknownWordsAreExactlyTheListedOnes, unknownWordsAreExactlyTheListedOnes, hclass]
  refine or_congr (and_congr_right fun c0 => ?_) <| or_congr (and_congr_right fun c5 => ?_) <|
    or_congr (and_congr_right fun c9 => ?_) <| or_congr (and_congr_right fun c8 => ?_) <|
    or_congr (and_congr_right fun cE => ?_) (and_congr_right fun cF => ?_)
  · rw [hnnn c0]
  · rw [hn (by simp [c5])]
  · rw [hn (by simp [c9])]
  · rw [hn (by simp [c8])]
  · rw [hnn (by simp [cE])]
  · rw [hnn (by simp [cF])]

/-- A row that selects an unknown word would have an unknown word as its match. -/
theorem not_selects_of_unknown {w : Word} (h : decode w = .error (.unknownWord w)) {r : OpRow}
    (hr : r ∈ opcodeMap) : ¬ r.selects w = true := by
  intro hsel
  obtain ⟨mclass, mnnn, mn, mnn⟩ := mask_covers_discriminant r hr
  have hunknown : decode r.mtch = .error (.unknownWord r.mtch) :=
    (unknown_congr (field_eq_of_selects hsel mclass) (fun c => field_eq_of_selects hsel (mnnn c))
      (fun c => field_eq_of_selects hsel (mn c)) (fun c => field_eq_of_selects hsel (mnn c))).1 h
  exact mtch_known r hr hunknown

theorem knownWord_eq_false_iff (w : Word) : knownWord w = false ↔ decode w = .error (.unknownWord w) := by
  rw [knownWord, List.any_eq_false]
  constructor
  · intro hnone
    obtain hu | ⟨i, -, hw⟩ := decode_answersFor w
    · exact hu
    · obtain ⟨own, hown, -, hsel⟩ := ownRow i
      exact absurd (hw ▸ hsel) (hnone own hown)
  · exact fun hu r => not_selects_of_unknown hu

/-- Settles O2: two rows that select one word agree under both masks, and every instruction has its own row. -/
theorem decoderFollowsTheOpcodeMap : Obligations.DecoderFollowsTheOpcodeMap :=
  ⟨rfl, fun _ _ hr _ hr' => row_eq_of_selects hr hr', fun _ _ h _ => selects_iff_num_eq h, knownWord_eq_false_iff⟩

/-! ### Words written out (R74) -/

/-- Settles O4: each word is a numeral, and the decoder computes on it. -/
theorem sampleWordsOfEveryFamilyDecode : Obligations.SampleWordsOfEveryFamilyDecode :=
  ⟨rfl, rfl, rfl, rfl, rfl, rfl, rfl⟩

end Sys2Proof

/-! The step (spec/40_step.md): the fetch that fails, the unknown word, the key wait, what a step never writes
(R90 to R96), and the statements settled from them. -/

namespace Sys2Proof.Machine

/-! ### The fetch that fails (R91) -/

theorem canFetch_eq_false_iff (s : State) : s.canFetch = false ↔ 4096 ≤ s.pc.toNat + 1 := by
  rw [← Bool.not_eq_true, canFetch_iff, Nat.not_lt]

/-- Settles O6: at the top of memory the step is the fetch's own error. -/
theorem failedFetchLeavesTheStateUnchanged : Obligations.FailedFetchLeavesTheStateUnchanged :=
  fun s hrun hpc => step_fetch_error hrun ((canFetch_eq_false_iff s).2 hpc)

/-! ### When an instruction completes, and that nothing is refused (R92) -/

/-- Settles O17: an instruction answers its `effect` where it completes, and an error elsewhere. -/
theorem instructionCompletesExactlyWhen : Obligations.InstructionCompletesExactlyWhen := by
  intro i s
  constructor
  · rintro ⟨t, h⟩
    obtain ⟨hc, -⟩ := exec_eq_next_iff.1 h
    exact hc
  · exact fun hc => ⟨_, exec_of_completes hc⟩

theorem exec_ne_refused (i : Instr) (s : State) (r : Refusal) : exec i s ≠ .refused r := by
  by_cases hc : completes i s
  · simp [exec_of_completes hc]
  · obtain ⟨f, hf, -⟩ := exec_of_not_completes hc
    simp [hf]

theorem execUnknown_ne_refused (w : Word) (s : State) (r : Refusal) : execUnknown w s ≠ .refused r := by
  cases hs : s.params.strictUnknown with
  | false => simp [execUnknown_default w s hs]
  | true => simp [execUnknown_strict w s hs]

/-- Settles O22: a poll and a failed fetch answer by themselves; the two kinds of execution are never refused. -/
theorem noStepIsRefused : Obligations.NoStepIsRefused := by
  intro s r
  obtain ⟨_, -, h⟩ | ⟨-, -, h⟩ | ⟨i, -, -, -, h⟩ | ⟨_, -, -, -, h⟩ := step_cases s <;> rw [h]
  · nofun
  · nofun
  · exact exec_ne_refused i _ r
  · exact execUnknown_ne_refused _ _ r

/-! ### The unknown word (R95, R171) -/

section
variable {s : State} (hrun : s.status = .running) (hf : s.canFetch = true)
  (hw : knownWord s.fetchWord = false)
include hrun hf hw

theorem step_of_unknownWord : step s = execUnknown s.fetchWord s.advance :=
  (step_running hrun hf).trans (execWord_error ((knownWord_eq_false_iff _).1 hw) _)

theorem diagnostic_of_unknownWord : s.diagnostic = some s.fetchWord := by
  have hnext : s.nextWord = some s.fetchWord := (nextWord_eq_some s _).2 ⟨hrun, hf, rfl⟩
  simp [State.diagnostic, hnext, (knownWord_eq_false_iff _).1 hw]

end

/-- Settles O7: both answers of the unknown-word rule leave the state as the fetch left it. -/
theorem unknownWordIsSkippedOrReported : Obligations.UnknownWordIsSkippedOrReported := by
  intro s hrun hpc hw
  have hf := (canFetch_iff s).2 hpc
  have hstep := step_of_unknownWord hrun hf hw
  have hleft : s.advance.pc.toNat = s.pc.toNat + 2 ∧ onlyChanges [.pc] s s.advance ∧
      s.diagnostic = some s.fetchWord :=
    ⟨advance_pc_toNat s hf, setPc_onlyChanges s _, diagnostic_of_unknownWord hrun hf hw⟩
  exact ⟨fun hs => ⟨_, hstep.trans (execUnknown_default _ _ hs), hleft⟩,
    fun hs => ⟨_, hstep.trans (execUnknown_strict _ _ hs), hleft⟩⟩

/-! ### The key wait (R93) -/

theorem waitStep_of_none {s : State} (r : Nibble) (h : KeyLatch.lowestPressed s.key = none) :
    waitStep r s = s := by
  simp [waitStep, h]

theorem waitStep_of_some {s : State} (r : Nibble) {k : Nibble} (h : KeyLatch.lowestPressed s.key = some k) :
    waitStep r s = (s.setV r (keyByte k)).setStatus .running := by
  simp [waitStep, h]

theorem setV_regsSameExcept (s : State) (x : Nibble) (b : Byte) : regsSameExcept [x] s (s.setV x b) :=
  fun k hk => by rw [getV_setV, if_neg (by simpa using hk)]

theorem setV_setStatus_onlyChanges (s : State) (x : Nibble) (b : Byte) (st : Status) :
    onlyChanges [.V, .status] s ((s.setV x b).setStatus st) := by
  intro p hp
  cases p with
  | V | status => simp at hp
  | mem | key => exact fun _ => rfl
  | disp => exact fun _ _ => rfl
  | random => exact ⟨rfl, rfl⟩
  | pc | I | DT | ST | stack | params => rfl

/-- Settles O9: the poll with no key pressed, and the poll that finds a lowest one. -/
theorem keyWaitPollsTheLatch : Obligations.KeyWaitPollsTheLatch := by
  intro s r hs
  constructor
  · intro hreleased
    rw [step_awaiting hs, waitStep_of_none r ((lowestPressed_none s.key).2 hreleased)]
  · intro k hk hlower
    have hresume := waitStep_of_some r ((lowestPressed_some s.key k).2 ⟨hk, hlower⟩)
    refine ⟨(s.setV r (keyByte k)).setStatus .running, by rw [step_awaiting hs, hresume], ?_, rfl,
      setV_regsSameExcept s r _, setV_setStatus_onlyChanges s r _ _⟩
    rw [getV_setStatus, getV_setV_same, keyByte_toNat]

/-! ### What an instruction writes, part by part (R96) -/

@[simp] theorem effect_key (i : Instr) (s : State) : (effect i s).key = s.key := by
  cases i <;> simp [effect]

section
variable (i : Instr) (s : State)

theorem effect_DT_eq_or : (effect i s).DT = s.DT ∨ ∃ x, i = .ldDTVx x ∧ (effect i s).DT = s.getV x := by
  cases i with
  | ldDTVx x => exact .inr ⟨x, rfl, rfl⟩
  | _ => exact .inl (by simp [effect])

theorem effect_ST_eq_or : (effect i s).ST = s.ST ∨ ∃ x, i = .ldSTVx x ∧ (effect i s).ST = s.getV x := by
  cases i with
  | ldSTVx x => exact .inr ⟨x, rfl, rfl⟩
  | _ => exact .inl (by simp [effect])

theorem effect_stack_eq_or : (effect i s).stack = s.stack ∨ i = .ret ∨ ∃ nnn, i = .call nnn := by
  cases i with
  | ret => exact .inr (.inl rfl)
  | call nnn => exact .inr (.inr ⟨nnn, rfl⟩)
  | _ => exact .inl (by simp [effect])

theorem effect_mem_eq_or : (effect i s).mem = s.mem ∨ ∃ x, i = .ldB x ∨ i = .storeRegs x := by
  cases i with
  | ldB x => exact .inr ⟨x, .inl rfl⟩
  | storeRegs x => exact .inr ⟨x, .inr rfl⟩
  | _ => exact .inl (by simp [effect])

theorem effect_disp_eq_or : (effect i s).disp = s.disp ∨ i = .cls ∨ ∃ x y n, i = .drw x y n := by
  cases i with
  | cls => exact .inr (.inl rfl)
  | drw x y n => exact .inr (.inr ⟨x, y, n, rfl⟩)
  | _ => exact .inl (by simp [effect])

theorem effect_random_eq_or :
    ((effect i s).randIn = s.randIn ∧ (effect i s).randDraws = s.randDraws) ∨ ∃ x nn, i = .rnd x nn := by
  cases i with
  | rnd x nn => exact .inr ⟨x, nn, rfl⟩
  | _ => exact .inl (by simp [effect])

end

/-! ### What a step writes, part by part (R96) -/

/-- The poll writes a register and `STATUS`, the fetch writes `pc`; so any change that a step makes to a read-out
which looks at none of the three is made by the instruction it executes. -/
theorem stepLeaves_writer {α : Type} {s t : State} (readOut : State → α)
    (hind : ∀ (u : State) V pc status, readOut { u with V, pc, status } = readOut u)
    (h : stepLeaves s t) (hne : readOut t ≠ readOut s) :
    ∃ i, s.nextInstr = some i ∧ t = effect i s.advance := by
  obtain ⟨r, -, rfl⟩ | ⟨i, hi, -, ht⟩ | ⟨-, rfl⟩ | rfl := stepLeaves_cases h
  · obtain ⟨-, ht⟩ | ⟨k, -, ht⟩ := waitStep_cases r s <;> rw [ht] at hne
    · exact absurd rfl hne
    · exact absurd (hind s _ _ _) hne
  · exact ⟨i, hi, ht⟩
  · exact absurd (hind s _ _ _) hne
  · exact absurd rfl hne

section
variable {s t : State} (h : stepLeaves s t)
include h

theorem stepLeaves_key : t.key = s.key := by
  by_contra hne
  obtain ⟨i, -, rfl⟩ := stepLeaves_writer State.key (fun _ _ _ _ => rfl) h hne
  exact hne (effect_key i s.advance)

theorem stepLeaves_DT_writer (hne : t.DT ≠ s.DT) :
    ∃ x, s.nextInstr = some (.ldDTVx x) ∧ t.DT = s.getV x := by
  obtain ⟨i, hi, rfl⟩ := stepLeaves_writer State.DT (fun _ _ _ _ => rfl) h hne
  obtain hsame | ⟨x, rfl, hx⟩ := effect_DT_eq_or i s.advance
  · exact absurd hsame hne
  · exact ⟨x, hi, hx⟩

theorem stepLeaves_ST_writer (hne : t.ST ≠ s.ST) :
    ∃ x, s.nextInstr = some (.ldSTVx x) ∧ t.ST = s.getV x := by
  obtain ⟨i, hi, rfl⟩ := stepLeaves_writer State.ST (fun _ _ _ _ => rfl) h hne
  obtain hsame | ⟨x, rfl, hx⟩ := effect_ST_eq_or i s.advance
  · exact absurd hsame hne
  · exact ⟨x, hi, hx⟩

theorem stepLeaves_stack_writer (hne : t.stack ≠ s.stack) :
    s.nextInstr = some .ret ∨ ∃ nnn, s.nextInstr = some (.call nnn) := by
  obtain ⟨i, hi, rfl⟩ := stepLeaves_writer State.stack (fun _ _ _ _ => rfl) h hne
  obtain hsame | rfl | ⟨nnn, rfl⟩ := effect_stack_eq_or i s.advance
  · exact absurd hsame hne
  · exact .inl hi
  · exact .inr ⟨nnn, hi⟩

theorem stepLeaves_mem_writer (hne : t.mem ≠ s.mem) :
    ∃ x, s.nextInstr = some (.ldB x) ∨ s.nextInstr = some (.storeRegs x) := by
  obtain ⟨i, hi, rfl⟩ := stepLeaves_writer State.mem (fun _ _ _ _ => rfl) h hne
  obtain hsame | ⟨x, rfl | rfl⟩ := effect_mem_eq_or i s.advance
  · exact absurd hsame hne
  · exact ⟨x, .inl hi⟩
  · exact ⟨x, .inr hi⟩

theorem stepLeaves_disp_writer (hne : t.disp ≠ s.disp) :
    s.nextInstr = some .cls ∨ ∃ x y n, s.nextInstr = some (.drw x y n) := by
  obtain ⟨i, hi, rfl⟩ := stepLeaves_writer State.disp (fun _ _ _ _ => rfl) h hne
  obtain hsame | rfl | ⟨x, y, n, rfl⟩ := effect_disp_eq_or i s.advance
  · exact absurd hsame hne
  · exact .inl hi
  · exact .inr ⟨x, y, n, hi⟩

theorem stepLeaves_random_writer (hne : t.randIn ≠ s.randIn ∨ t.randDraws ≠ s.randDraws) :
    ∃ x nn, s.nextInstr = some (.rnd x nn) := by
  have hpair : (t.randIn, t.randDraws) ≠ (s.randIn, s.randDraws) := by
    simpa [Prod.ext_iff, ← not_and_or] using hne
  obtain ⟨i, hi, rfl⟩ := stepLeaves_writer (fun u => (u.randIn, u.randDraws)) (fun _ _ _ _ => rfl) h hpair
  obtain ⟨hin, hdraws⟩ | ⟨x, nn, rfl⟩ := effect_random_eq_or i s.advance
  · exact absurd (Prod.ext hin hdraws) hpair
  · exact ⟨x, nn, hi⟩

end

/-- Settles O11: the seven clauses, each over all the states a step can leave. -/
theorem stepWritesOnlyWhatItsInstructionMay : Obligations.StepWritesOnlyWhatItsInstructionMay :=
  fun _ _ h => ⟨fun _ => by rw [stepLeaves_key h], stepLeaves_DT_writer h, stepLeaves_ST_writer h,
    stepLeaves_stack_writer h, stepLeaves_mem_writer h, stepLeaves_disp_writer h, stepLeaves_random_writer h⟩

end Sys2Proof.Machine

/-! Control transfer (spec/41_control_flow.md): returns, jumps, calls and skips, and the statements settled from
them (R100 to R108). -/

namespace Sys2Proof.Machine

/-! ### Returns, calls and jumps (R100 to R102, R107) -/

/-- A return and a call write `pc` and the stack, and nothing besides. -/
theorem withPcStack_onlyChanges (s : State) (w : Word) (ws : List Word) :
    onlyChanges [.pc, .stack] s { s with pc := w, stack := ws } := by
  intro p hp
  cases p with
  | pc | stack => simp at hp
  | V | mem | key => exact fun _ => rfl
  | disp => exact fun _ _ => rfl
  | random => exact ⟨rfl, rfl⟩
  | I | DT | ST | status | params => rfl

theorem exec_ret_of_stack_nil {s : State} (h : s.stack = []) : exec .ret s = .fault (.stackUnderflow s) := by
  simp [exec, execRet, h]

theorem exec_call_of_stackFull {s : State} (nnn : Addr12) (h : s.stackFull = true) :
    exec (.call nnn) s = .fault (.stackOverflow s) := by
  simp [exec, execCall, h]

theorem stackFull_of_depth_le {s : State} {d : Nat} (hd : s.params.stackDepth = some d)
    (hle : d ≤ s.stack.length) : s.stackFull = true := by
  simp [State.stackFull, hd, hle]

/-- Settles O23: on a stack that is not empty the return completes, and head and tail of the stack are what it
leaves. -/
theorem returnPopsTheStackIntoPc : Obligations.ReturnPopsTheStackIntoPc := by
  refine ⟨decode_encode .ret, fun s a rest hs => ?_, fun s => exec_ret_of_stack_nil⟩
  have hne : s.stack ≠ [] := by simp [hs]
  obtain ⟨hpc, hstack⟩ := List.cons.inj (hs.symm.trans (effect_ret_stack hne))
  exact ⟨effect .ret s, exec_of_completes hne, hpc.symm, hstack.symm, withPcStack_onlyChanges s _ _⟩

/-- Settles O24: the jump always completes, and its effect is a write of `pc`. -/
theorem jumpSetsPc : Obligations.JumpSetsPc :=
  fun nnn s => ⟨decode_encode (.jp nnn), effect (.jp nnn) s, exec_of_completes trivial, addrImm_toNat nnn,
    setPc_onlyChanges s _⟩

/-- Settles O25: with room on the stack the call completes, on a full one it raises. -/
theorem callPushesAndJumps : Obligations.CallPushesAndJumps := by
  intro nnn s
  refine ⟨decode_encode (.call nnn), fun hroom => ?_, fun d hd hle => ?_⟩
  · exact ⟨effect (.call nnn) s, exec_of_completes hroom, rfl, addrImm_toNat nnn, withPcStack_onlyChanges s _ _⟩
  · exact exec_call_of_stackFull nnn (stackFull_of_depth_le hd hle)

/-- Settles O28: the sum of a 12-bit target and a byte fits in the 16 bits of `pc`. -/
theorem indexedJumpAddsV0 : Obligations.IndexedJumpAddsV0 :=
  fun nnn s => ⟨decode_encode (.jpV0 nnn), effect (.jpV0 nnn) s, exec_of_completes trivial,
    effect_jpV0_pc_toNat nnn s, setPc_onlyChanges s _⟩

/-! ### Skips (R103 to R106, R108) -/

theorem skipIf_onlyChanges (s : State) (c : Bool) : onlyChanges [.pc] s (s.skipIf c) := by
  cases c with
  | false => exact setPc_onlyChanges s s.pc
  | true => exact setPc_onlyChanges s (s.pc + 2)

/-- What every skip answers: `pc` moves a further 2 on under its condition, and nothing else changes. -/
theorem exec_of_effect_skipIf {i : Instr} {s : State} {c : Bool} (hc : completes i s)
    (he : effect i s = s.skipIf c) :
    ∃ t, exec i s = .next t ∧ t.pc = (if c then s.pc + 2 else s.pc) ∧ onlyChanges [.pc] s t :=
  ⟨s.skipIf c, he ▸ exec_of_completes hc, skipIf_pc s c, skipIf_onlyChanges s c⟩

/-- Settles O26: both are skips, on the test `Vx = nn` and on its negation. -/
theorem skipOnImmediate : Obligations.SkipOnImmediate := by
  intro x nn s
  have hse := exec_of_effect_skipIf (i := .seImm x nn) (s := s) trivial rfl
  have hsne := exec_of_effect_skipIf (i := .sneImm x nn) (s := s) trivial rfl
  exact ⟨decode_encode (.seImm x nn), decode_encode (.sneImm x nn), by simpa using hse, by simpa using hsne⟩

/-- Classes 5 and 9 have an instruction at the low digit 0 only (R77). -/
theorem decode_formatXYN_unknown {c n : Nibble} (hc : c = 0x5 ∨ c = 0x9) (hn : n ≠ 0) (x y : Nibble) :
    decode (formatXYN c x y n) = .error (.unknownWord (formatXYN c x y n)) := by
  rw [unknownWordsAreExactlyTheListedOnes]
  rcases hc with rfl | rfl <;> simpa using hn

/-- Settles O27: both are skips, on the test `Vx = Vy` and on its negation. -/
theorem skipOnRegisters : Obligations.SkipOnRegisters := by
  intro x y s
  have hse := exec_of_effect_skipIf (i := .seReg x y) (s := s) trivial rfl
  have hsne := exec_of_effect_skipIf (i := .sneReg x y) (s := s) trivial rfl
  exact ⟨decode_encode (.seReg x y), decode_encode (.sneReg x y),
    fun n hn => ⟨decode_formatXYN_unknown (.inl rfl) hn x y, decode_formatXYN_unknown (.inr rfl) hn x y⟩,
    by simpa using hse, by simpa using hsne⟩

/-! ### A call and its return -/

/-- The return pops what the call pushed, so that the two executions cancel; the fetch between them moves a `pc` that
the return overwrites. -/
theorem effect_ret_of_call (nnn : Addr12) (s : State) : effect .ret (effect (.call nnn) s).advance = s := rfl

/-- Settles O29: the call's step and the return's step together leave the state as the call's fetch left it. -/
theorem callThenReturnRestoresPc : Obligations.CallThenReturnRestoresPc := by
  intro s t nnn hcall hstep hret
  rw [step_of_nextInstr hcall] at hstep
  obtain ⟨-, rfl⟩ := exec_eq_next_iff.1 hstep
  have hpushed : completes .ret (effect (.call nnn) s.advance).advance := List.cons_ne_nil _ _
  have hback : step (effect (.call nnn) s.advance) = .next s.advance := by
    rw [step_of_nextInstr hret, exec_of_completes hpushed, effect_ret_of_call]
  exact ⟨s.advance, hback, advance_pc_toNat s (canFetch_of_nextInstr hcall), setPc_onlyChanges s _⟩

end Sys2Proof.Machine

/-! Registers, arithmetic, logic, shifts and the random byte (spec/42_alu.md), and the statements settled from them
(R110 to R123). -/

namespace Sys2Proof.Machine

/-! ### What a write of one register leaves, and a write of a result and the flag (R96, R123) -/

theorem withV_onlyChanges (s : State) (v : Vector Byte 16) : onlyChanges [.V] s { s with V := v } := by
  intro p hp
  cases p with
  | V => exact absurd List.mem_cons_self hp
  | mem | key => exact fun _ => rfl
  | disp => exact fun _ _ => rfl
  | random => exact ⟨rfl, rfl⟩
  | pc | I | DT | ST | status | stack | params => rfl

theorem setV_frame (s : State) (x : Nibble) (b : Byte) :
    regsSameExcept [x] s (s.setV x b) ∧ onlyChanges [.V] s (s.setV x b) :=
  ⟨setV_regsSameExcept s x b, withV_onlyChanges s _⟩

theorem setResultAndFlag_regsSameExcept (s : State) (x : Nibble) (r : Byte) (f : Bool) :
    regsSameExcept [x, 0xF] s (s.setResultAndFlag x r f) := by
  intro k hk
  obtain ⟨hx, hF⟩ : k ≠ x ∧ k ≠ 0xF := by simpa using hk
  rw [getV_setResultAndFlag, if_neg hF, if_neg hx]

/-- What every instruction with a flag answers: the flag stands last, so that it also wins at `x` = 15 (D7). -/
theorem exec_of_effect_setResultAndFlag {i : Instr} {s : State} {x : Nibble} {r : Byte} {f : Bool}
    (hc : completes i s) (he : effect i s = s.setResultAndFlag x r f) :
    ∃ t, exec i s = .next t ∧ (t.getV 0xF).toNat = f.toNat ∧ (x ≠ 0xF → (t.getV x).toNat = r.toNat) ∧
      regsSameExcept [x, 0xF] s t ∧ onlyChanges [.V] s t := by
  refine ⟨s.setResultAndFlag x r f, he ▸ exec_of_completes hc, ?_, fun hx => ?_,
    setResultAndFlag_regsSameExcept s x r f, withV_onlyChanges s _⟩
  · rw [getV_setResultAndFlag, if_pos rfl, flagByte_toNat]
  · rw [getV_setResultAndFlag, if_neg hx, if_pos rfl]

/-! ### Results and flags as numbers (R116 to R120, R122) -/

theorem carryOf_toNat (a b : Byte) : (carryOf a b).toNat = if a.toNat + b.toNat > 255 then 1 else 0 := by
  simp only [carryOf, Bool.toNat, Bool.cond_decide]

theorem noBorrowOf_toNat (a b : Byte) : (noBorrowOf a b).toNat = if a.toNat ≥ b.toNat then 1 else 0 := by
  simp only [noBorrowOf, Bool.toNat, Bool.cond_decide]

/-- A difference modulo 256, by whether it borrows. -/
theorem byte_sub_toNat (a b : Byte) :
    (a - b).toNat = if a.toNat ≥ b.toNat then a.toNat - b.toNat else a.toNat + 256 - b.toNat := by
  have ha := a.isLt
  have hb := b.isLt
  rw [BitVec.toNat_sub]
  split <;> omega

theorem byte_shiftRight_one_toNat (a : Byte) : (a >>> 1).toNat = a.toNat / 2 := by
  rw [BitVec.toNat_ushiftRight, Nat.shiftRight_one]

theorem byte_shiftLeft_one_toNat (a : Byte) : (a <<< 1).toNat = a.toNat * 2 % 256 := by
  rw [BitVec.toNat_shiftLeft, Nat.shiftLeft_eq, pow_one]

/-- Settles O34: each of the three writes a result and then the flag, both computed from the old registers. -/
theorem addAndSubtractSetTheFlagLast : Obligations.AddAndSubtractSetTheFlagLast := by
  intro x y s
  have hadd := exec_of_effect_setResultAndFlag (i := .addReg x y) (s := s) trivial rfl
  have hsub := exec_of_effect_setResultAndFlag (i := .sub x y) (s := s) trivial rfl
  have hsubn := exec_of_effect_setResultAndFlag (i := .subn x y) (s := s) trivial rfl
  rw [carryOf_toNat, BitVec.toNat_add] at hadd
  rw [noBorrowOf_toNat, byte_sub_toNat] at hsub hsubn
  exact ⟨decode_encode (.addReg x y), decode_encode (.sub x y), decode_encode (.subn x y), hadd, hsub, hsubn⟩

/-- Settles O35: both write the shifted byte and then the bit that the shift sends out; neither reads `Vy`. -/
theorem shiftsSendOneBitToTheFlag : Obligations.ShiftsSendOneBitToTheFlag := by
  intro x y s
  have hshr := exec_of_effect_setResultAndFlag (i := .shr x y) (s := s) trivial rfl
  have hshl := exec_of_effect_setResultAndFlag (i := .shl x y) (s := s) trivial rfl
  rw [shiftedOutRight_toNat, byte_shiftRight_one_toNat] at hshr
  rw [shiftedOutLeft_toNat, byte_shiftLeft_one_toNat] at hshl
  exact ⟨decode_encode (.shr x y), decode_encode (.shl x y), hshr, hshl, fun _ => ⟨rfl, rfl⟩⟩

/-! ### Loads, the immediate addition and the bitwise operations (R110 to R115) -/

/-- Settles O31: both write `Vx` alone. -/
theorem loadRegister : Obligations.LoadRegister :=
  fun x y nn s => ⟨decode_encode (.ldImm x nn), decode_encode (.ldReg x y),
    ⟨effect (.ldImm x nn) s, exec_of_completes trivial, getV_setV_same s x _, setV_frame s x _⟩,
    ⟨effect (.ldReg x y) s, exec_of_completes trivial, getV_setV_same s x _, setV_frame s x _⟩⟩

/-- Settles O32: the sum of two bytes is modulo 256, and `Vx` alone is written. -/
theorem addImmediateWrapsWithoutFlag : Obligations.AddImmediateWrapsWithoutFlag := by
  intro x nn s
  refine ⟨decode_encode (.addImm x nn), effect (.addImm x nn) s, exec_of_completes trivial, ?_, setV_frame s x _⟩
  rw [effect, getV_setV_same, BitVec.toNat_add]

/-- Settles O33: the three write `Vx` alone, and each bit of it comes from the same bit of the two operands. -/
theorem logicalOperationsLeaveTheFlag : Obligations.LogicalOperationsLeaveTheFlag := by
  intro x y s
  refine ⟨decode_encode (.orReg x y), decode_encode (.andReg x y), decode_encode (.xorReg x y),
    ⟨effect (.orReg x y) s, exec_of_completes trivial, fun b => ?_, setV_frame s x _⟩,
    ⟨effect (.andReg x y) s, exec_of_completes trivial, fun b => ?_, setV_frame s x _⟩,
    ⟨effect (.xorReg x y) s, exec_of_completes trivial, fun b => ?_, setV_frame s x _⟩⟩
  · rw [effect, getV_setV_same, BitVec.getLsbD_or]
  · rw [effect, getV_setV_same, BitVec.getLsbD_and]
  · rw [effect, getV_setV_same, BitVec.getLsbD_xor]

/-! ### The random byte (R121, R173) -/

theorem consumeRandom_setV_onlyChanges (s : State) (x : Nibble) (b : Byte) :
    onlyChanges [.V, .random] s (s.consumeRandom.setV x b) := by
  intro p hp
  cases p with
  | V | random => simp at hp
  | mem | key => exact fun _ => rfl
  | disp => exact fun _ _ => rfl
  | pc | I | DT | ST | status | stack | params => rfl

theorem randByte_of_cons {s : State} {r : Byte} {rest : List Byte} (h : s.randIn = r :: rest) : s.randByte = r := by
  simp [State.randByte, h]

/-- Settles O36: the byte is `randByte`, and the list of supplied bytes loses its first one. -/
theorem randomByteIsMasked : Obligations.RandomByteIsMasked := by
  intro x nn s
  refine ⟨decode_encode (.rnd x nn), s.randByte, effect (.rnd x nn) s, exec_of_completes trivial, fun b => ?_,
    fun r rest hr => ⟨randByte_of_cons hr, congrArg List.tail hr⟩, fun hr => congrArg List.tail hr, rfl,
    setV_regsSameExcept s.consumeRandom x _, consumeRandom_setV_onlyChanges s x _⟩
  rw [effect, getV_setV_same, BitVec.getLsbD_and]

end Sys2Proof.Machine

/-! Index register and memory transfer (spec/43_index_memory.md), and the statements settled from them (R130 to
R136). -/

namespace Sys2Proof.Machine

/-! ### What a write of the index register and a store leave -/

theorem setI_onlyChanges (s : State) (w : Word) : onlyChanges [.I] s (s.setI w) := by
  intro p hp
  cases p with
  | I => exact absurd List.mem_cons_self hp
  | V | mem | key => exact fun _ => rfl
  | disp => exact fun _ _ => rfl
  | random => exact ⟨rfl, rfl⟩
  | pc | DT | ST | status | stack | params => rfl

theorem store_onlyChanges (s : State) (a : Nat) (bytes : List Byte) : onlyChanges [.mem] s (s.store a bytes) := by
  intro p hp
  cases p with
  | mem => exact absurd List.mem_cons_self hp
  | V | key => exact fun _ => rfl
  | disp => exact fun _ _ => rfl
  | random => exact ⟨rfl, rfl⟩
  | pc | I | DT | ST | status | stack | params => rfl

/-- What both storing instructions answer inside memory: every address holds what `holdsAfter` says, and nothing but
memory changes, `I` included (R136). -/
theorem exec_of_effect_store {i : Instr} {s : State} {a : Nat} {bytes : List Byte} (hm : s.mem.wf = true)
    (hc : completes i s) (he : effect i s = s.store a bytes) :
    ∃ t, exec i s = .next t ∧ (∀ a, holdsAfter s a (t.mem.read a) i) ∧ t.mem.wf = true ∧ onlyChanges [.mem] s t :=
  ⟨effect i s, exec_of_completes hc, holdsAfter_effect hm hc, effect_mem_wf hc hm, he ▸ store_onlyChanges s a bytes⟩

/-! ### The transfers past the top of memory (R136, R186) -/

section
variable {x : Nibble} {s : State}

theorem exec_ldB_of_range_exceeds (h : 4095 < s.I.toNat + 2) :
    exec (.ldB x) s = .fault (.memoryAccessError (s.I.toNat + 2) s) :=
  withRange_fault s _ (by decide) (Nat.succ_lt_succ h)

variable (h : 4095 < s.I.toNat + x.toNat)
include h

theorem exec_storeRegs_of_range_exceeds :
    exec (.storeRegs x) s = .fault (.memoryAccessError (s.I.toNat + x.toNat) s) :=
  withRange_fault s _ (Nat.succ_pos _) (Nat.succ_lt_succ h)

theorem exec_loadRegs_of_range_exceeds :
    exec (.loadRegs x) s = .fault (.memoryAccessError (s.I.toNat + x.toNat) s) :=
  withRange_fault s _ (Nat.succ_pos _) (Nat.succ_lt_succ h)

end

/-! ### The transfers (R133 to R135) -/

/-- Settles O39: the three digits are what `holdsAfter` says of `Fx33` at `I`, `I + 1` and `I + 2`. -/
theorem decimalDigitsAreStored : Obligations.DecimalDigitsAreStored := by
  intro x s
  refine ⟨decode_encode (.ldB x), fun hm hI => ?_, exec_ldB_of_range_exceeds⟩
  obtain ⟨t, hexec, hholds, hwf, hframe⟩ := exec_of_effect_store (i := .ldB x) hm (Nat.succ_le_succ hI) rfl
  obtain ⟨hundreds, -, -, -⟩ := hholds s.I.toNat
  obtain ⟨-, tens, -, -⟩ := hholds (s.I.toNat + 1)
  obtain ⟨-, -, ones, -⟩ := hholds (s.I.toNat + 2)
  refine ⟨t, hexec, hundreds rfl, tens rfl, ones rfl, fun a ha => ?_, hwf, hframe⟩
  obtain ⟨-, -, -, hout⟩ := hholds a
  exact hout ha

/-- Settles O40: the registers are what `holdsAfter` says of `Fx55` at `I` to `I + x`. -/
theorem registersAreStored : Obligations.RegistersAreStored := by
  intro x s
  refine ⟨decode_encode (.storeRegs x), fun hm hI => ?_, exec_storeRegs_of_range_exceeds⟩
  obtain ⟨t, hexec, hholds, hwf, hframe⟩ := exec_of_effect_store (i := .storeRegs x) hm (Nat.succ_le_succ hI) rfl
  refine ⟨t, hexec, fun k hk => ?_, fun a ha => ?_, hwf, hframe⟩
  · obtain ⟨hin, -⟩ := hholds (s.I.toNat + k.toNat)
    exact hin k hk rfl
  · obtain ⟨-, hout⟩ := hholds a
    exact hout ha

/-- Settles O41: each register reads the byte at its own offset from `I` up to `Vx`, and its old value above. -/
theorem registersAreLoaded : Obligations.RegistersAreLoaded := by
  intro x s
  refine ⟨decode_encode (.loadRegs x), fun hI => ?_, exec_loadRegs_of_range_exceeds⟩
  have hreg (k : Nibble) := getV_loadRegRange s x k s.base
  refine ⟨effect (.loadRegs x) s, exec_of_completes (Nat.succ_le_succ hI), fun k hk => ?_, fun k hk => ?_,
    withV_onlyChanges s _⟩
  · exact (hreg k).trans (if_pos hk)
  · exact (hreg k).trans (if_neg (not_le.2 hk))

/-! ### The index register (R130 to R132) -/

/-- Settles O37: the 12-bit immediate keeps its value in the 16 bits of `I`. -/
theorem loadIndex : Obligations.LoadIndex :=
  fun nnn s => ⟨decode_encode (.ldI nnn), effect (.ldI nnn) s, exec_of_completes trivial, addrImm_toNat nnn,
    setI_onlyChanges s _⟩

/-- Settles O38: the sum is modulo 65536 (D12); 5 times a byte needs no reduction (D29). -/
theorem indexArithmetic : Obligations.IndexArithmetic := by
  intro x s
  have hsum : (s.I + zext16 (s.getV x)).toNat = (s.I.toNat + (s.getV x).toNat) % 65536 := by
    rw [BitVec.toNat_add, zext16_toNat]
  exact ⟨decode_encode (.addI x), decode_encode (.ldF x),
    ⟨effect (.addI x) s, exec_of_completes trivial, hsum, setI_onlyChanges s _⟩,
    ⟨effect (.ldF x) s, exec_of_completes trivial, glyphAddr_toNat _, setI_onlyChanges s _⟩⟩

end Sys2Proof.Machine

/-! The display (spec/44_display.md): the compositor's rules in the words of the statements, and the statements
settled from them (R141 to R147). -/

namespace Sys2Proof.Machine

/-! ### One pixel through the ports of `pixel_at` (R142, R143) -/

theorem samePixel_toNat_iff {x y : Nat} {px : BitVec 6} {py : BitVec 5} :
    samePixel x y px.toNat py.toNat ↔ x % 64 = px.toNat ∧ y % 32 = py.toNat := by
  rw [samePixel, Nat.mod_eq_of_lt px.isLt, Nat.mod_eq_of_lt py.isLt]

theorem pixelAt_of_samePixel (d : Display) {x y : Nat} {px : BitVec 6} {py : BitVec 5}
    (h : samePixel x y px.toNat py.toNat) : d.pixelAt px py = d.wrapped x y := by
  rw [pixelAt_eq_wrapped, wrapped_congr d h]

theorem samePixel_ofNat (x y : Nat) : samePixel x y (BitVec.ofNat 6 x).toNat (BitVec.ofNat 5 y).toNat :=
  samePixel_toNat_iff.2 ⟨(BitVec.toNat_ofNat x 6).symm, (BitVec.toNat_ofNat y 5).symm⟩

theorem pixelAt_put (d : Display) (x y : Nat) (p : Bool) (px : BitVec 6) (py : BitVec 5) :
    (d.put x y p).pixelAt px py = if samePixel x y px.toNat py.toNat then p else d.pixelAt px py := by
  rw [pixelAt_eq_wrapped, wrapped_put, pixelAt_eq_wrapped]

/-- Settles O44: `plot` puts one pixel, and the pixel it reads is the one it puts. -/
theorem plotTogglesTheWrappedPixel : Obligations.PlotTogglesTheWrappedPixel := by
  intro d x y bit cx cy
  have hsame : samePixel x y cx.toNat cy.toNat ↔ cx.toNat = x % 64 ∧ cy.toNat = y % 32 := by
    rw [samePixel_toNat_iff, eq_comm, @eq_comm _ (y % 32)]
  rw [← hsame, Display.plot, pixelAt_put]
  refine ⟨fun h => ?_, fun h => if_neg h⟩
  rw [if_pos h, pixelAt_of_samePixel d h]
  exact ⟨rfl, rfl⟩

/-! ### The sprite (R145, R147)

The latched coordinates and the base of `drawSprite` are those of `spriteCovers`, so the compositor's `spriteHits` and
`spriteCollides` say what the statements say. -/

/-- A sprite is never taller than the display, so no two of its rows wrap onto one row of pixels. -/
theorem rows_le_dispH (n : Nibble) : n.toNat ≤ 32 := by
  have := n.isLt
  omega

section
variable (s : State) (x y n : Nibble)

theorem spriteHits_iff_spriteCovers (px : BitVec 6) (py : BitVec 5) :
    spriteHits s.mem s.base (s.getV x).toNat (s.getV y).toNat n.toNat px.toNat py.toNat ↔
      spriteCovers s x y n px py := by
  constructor
  · rintro ⟨row, hrow, col, hcol, hbit, hsame⟩
    exact ⟨row, col, hrow, hcol, hbit, samePixel_toNat_iff.1 hsame⟩
  · rintro ⟨row, col, hrow, hcol, hbit, hsame⟩
    exact ⟨row, hrow, col, hcol, hbit, samePixel_toNat_iff.2 hsame⟩

theorem spriteCollides_iff_spriteCovers :
    spriteCollides s.disp s.mem s.base (s.getV x).toNat (s.getV y).toNat n.toNat ↔
      ∃ px py, spriteCovers s x y n px py ∧ s.disp.pixelAt px py = true := by
  constructor
  · rintro ⟨row, hrow, col, hcol, hbit, hon⟩
    have hsame := samePixel_ofNat ((s.getV x).toNat + col) ((s.getV y).toNat + row)
    exact ⟨_, _, ⟨row, col, hrow, hcol, hbit, samePixel_toNat_iff.1 hsame⟩, (pixelAt_of_samePixel _ hsame).trans hon⟩
  · rintro ⟨px, py, ⟨row, col, hrow, hcol, hbit, hsame⟩, hon⟩
    exact ⟨row, hrow, col, hcol, hbit, (pixelAt_of_samePixel _ (samePixel_toNat_iff.2 hsame)).symm.trans hon⟩

/-- Each pixel is its old value XOR whether a set sprite bit maps onto it, in the compositor's words (R147c). -/
theorem drawSprite_pixelAt (px : BitVec 6) (py : BitVec 5) :
    (s.drawSprite x y n).disp.pixelAt px py = (s.disp.pixelAt px py ^^
      decide (spriteHits s.mem s.base (s.getV x).toNat (s.getV y).toNat n.toNat px.toNat py.toNat)) := by
  rw [pixelAt_eq_wrapped, pixelAt_eq_wrapped]
  exact drawRows_wrapped _ _ _ _ _ _ _ _ (rows_le_dispH n)

theorem drawSprite_hit_iff :
    (s.drawSprite x y n).hit = true ↔ ∃ px py, spriteCovers s x y n px py ∧ s.disp.pixelAt px py = true := by
  rw [← spriteCollides_iff_spriteCovers, State.drawSprite, drawRows_hit _ _ _ _ _ _ (rows_le_dispH n), Bool.false_or,
    decide_eq_true_iff]

/-! ### What `Dxyn` leaves -/

section
variable {s x y n} {px : BitVec 6} {py : BitVec 5}

theorem effect_drw_pixelAt_of_covers (h : spriteCovers s x y n px py) :
    (effect (.drw x y n) s).disp.pixelAt px py = !s.disp.pixelAt px py := by
  rw [effect, setFlag_disp, setDisp_disp, drawSprite_pixelAt, decide_eq_true ((spriteHits_iff_spriteCovers ..).2 h),
    Bool.xor_true]

theorem effect_drw_pixelAt_of_not_covers (h : ¬ spriteCovers s x y n px py) :
    (effect (.drw x y n) s).disp.pixelAt px py = s.disp.pixelAt px py := by
  rw [effect, setFlag_disp, setDisp_disp, drawSprite_pixelAt,
    decide_eq_false (mt (spriteHits_iff_spriteCovers ..).1 h), Bool.xor_false]

end

theorem effect_drw_getVF_toNat : ((effect (.drw x y n) s).getV 0xF).toNat = (s.drawSprite x y n).hit.toNat := by
  rw [effect, getV_setFlag, if_pos rfl, flagByte_toNat]

/-- The flag that `Dxyn` leaves is its collision (R147a). -/
theorem effect_drw_getVF_eq_one_iff : ((effect (.drw x y n) s).getV 0xF).toNat = 1 ↔
    ∃ px py, spriteCovers s x y n px py ∧ s.disp.pixelAt px py = true := by
  rw [effect_drw_getVF_toNat, Bool.toNat_eq_one, drawSprite_hit_iff]

theorem effect_drw_regsSameExcept : regsSameExcept [0xF] s (effect (.drw x y n) s) :=
  setV_regsSameExcept (s.setDisp _) 0xF _

theorem effect_drw_onlyChanges : onlyChanges [.V, .disp] s (effect (.drw x y n) s) := by
  intro p hp
  cases p with
  | V | disp => simp at hp
  | mem | key => exact fun _ => rfl
  | random => exact ⟨rfl, rfl⟩
  | pc | I | DT | ST | status | stack | params => rfl

end

theorem exec_drw_of_range_exceeds {s : State} {n : Nibble} (x y : Nibble) (hn : 1 ≤ n.toNat)
    (h : 4095 < s.I.toNat + n.toNat - 1) :
    exec (.drw x y n) s = .fault (.memoryAccessError (s.I.toNat + n.toNat - 1) s) :=
  withRange_fault (base := s.I.toNat) s _ hn (by omega)

/-- Settles O45: the sprite lies in memory just where `Dxyn` completes; each pixel is flipped or kept. -/
theorem drawXorsTheSprite : Obligations.DrawXorsTheSprite := by
  intro x y n s
  refine ⟨decode_encode (.drw x y n), fun hrange => ?_, exec_drw_of_range_exceeds x y⟩
  have hc : completes (.drw x y n) s := by rw [completes]; omega
  refine ⟨effect (.drw x y n) s, exec_of_completes hc, fun px py => ?_, effect_drw_regsSameExcept s x y n,
    effect_drw_onlyChanges s x y n⟩
  by_cases h : spriteCovers s x y n px py
  · simp [effect_drw_pixelAt_of_covers h, h]
  · simp [effect_drw_pixelAt_of_not_covers h, h]

/-- Settles O46: the flag is 0 or 1, and 1 for a collision. -/
theorem drawSetsTheCollisionFlag : Obligations.DrawSetsTheCollisionFlag := by
  intro x y n s t h
  obtain ⟨-, rfl⟩ := exec_eq_next_iff.1 h
  refine ⟨effect_drw_getVF_eq_one_iff s x y n, ?_⟩
  rw [← drawSprite_hit_iff, effect_drw_getVF_toNat, Bool.toNat_eq_zero, Bool.not_eq_true]

/-! ### The same sprite twice (R147b) -/

section
variable {s : State} {x y : Nibble} (n : Nibble) (hx : x ≠ 0xF) (hy : y ≠ 0xF) (px : BitVec 6) (py : BitVec 5)
include hx hy

/-- A draw keeps memory, `I` and every register but `VF`, so the next draw covers the same pixels. -/
theorem spriteCovers_effect_drw :
    spriteCovers (effect (.drw x y n) s) x y n px py ↔ spriteCovers s x y n px py := by
  have hregs := effect_drw_regsSameExcept s x y n
  have hVx := hregs x (by simpa using hx)
  have hVy := hregs y (by simpa using hy)
  rw [spriteCovers, hVx, hVy]
  exact Iff.rfl

/-- A pixel that the sprite covers is flipped and flipped back, any other is kept twice. -/
theorem effect_drw_twice_pixelAt :
    (effect (.drw x y n) (effect (.drw x y n) s)).disp.pixelAt px py = s.disp.pixelAt px py := by
  have hcovers := spriteCovers_effect_drw (s := s) n hx hy px py
  by_cases h : spriteCovers s x y n px py
  · rw [effect_drw_pixelAt_of_covers (hcovers.2 h), effect_drw_pixelAt_of_covers h, Bool.not_not]
  · rw [effect_drw_pixelAt_of_not_covers (mt hcovers.1 h), effect_drw_pixelAt_of_not_covers h]

/-- What the second draw collides with are the covered pixels that were off. -/
theorem effect_drw_twice_getVF_eq_one_iff :
    ((effect (.drw x y n) (effect (.drw x y n) s)).getV 0xF).toNat = 1 ↔
      ∃ px py, spriteCovers s x y n px py ∧ s.disp.pixelAt px py = false := by
  simp only [effect_drw_getVF_eq_one_iff, spriteCovers_effect_drw n hx hy]
  refine exists_congr fun px => exists_congr fun py => and_congr_right fun h => ?_
  rw [effect_drw_pixelAt_of_covers h, Bool.not_eq_true']

end

/-- Settles O47: the fetch of each step moves `pc` alone, so the two steps are two draws from `s`. -/
theorem drawTwiceRestoresTheDisplay : Obligations.DrawTwiceRestoresTheDisplay := by
  intro s t x y n hx hy hs hstep ht
  obtain ⟨hc, rfl⟩ := step_next_of_nextInstr hstep hs
  have hdisp := effect_drw_twice_pixelAt (s := s) n hx hy
  refine ⟨_, (step_of_nextInstr ht).trans (exec_of_completes hc), hdisp,
    effect_drw_twice_getVF_eq_one_iff (s := s) n hx hy, ?_, ?_⟩
  · intro k hk
    exact (effect_drw_regsSameExcept _ x y n k hk).trans (effect_drw_regsSameExcept s.advance x y n k hk)
  · intro p hp
    cases p with
    | V | pc => simp at hp
    | disp => exact hdisp
    | mem | key => exact fun _ => rfl
    | random => exact ⟨rfl, rfl⟩
    | I | DT | ST | status | stack | params => rfl

/-! ### A sprite of no rows, and the cleared surface (R144, R146) -/

theorem setDisp_onlyChanges (s : State) (d : Display) : onlyChanges [.disp] s (s.setDisp d) := by
  intro p hp
  cases p with
  | disp => exact absurd List.mem_cons_self hp
  | V | mem | key => exact fun _ => rfl
  | random => exact ⟨rfl, rfl⟩
  | pc | I | DT | ST | status | stack | params => rfl

/-- Settles O43: the effect of `00E0` is the cleared surface. -/
theorem clearTurnsEveryPixelOff : Obligations.ClearTurnsEveryPixelOff :=
  ⟨decode_encode .cls, fun s => ⟨effect .cls s, exec_of_completes trivial, pixelAt_clear, setDisp_onlyChanges s _⟩⟩

/-- With no row the check passes, and the effect is the write of the flag alone (R146). -/
theorem effect_drw_zero (x y : Nibble) (s : State) : effect (.drw x y 0) s = s.setFlag false := rfl

/-- Settles O48: the range check passes for no rows, and no bit is plotted. -/
theorem drawOfZeroRowsOnlyClearsTheFlag : Obligations.DrawOfZeroRowsOnlyClearsTheFlag := by
  intro x y s
  refine ⟨effect (.drw x y 0) s, exec_of_completes (.inl rfl), ?_⟩
  rw [effect_drw_zero]
  exact ⟨getV_setV_same s 0xF 0, setV_frame s 0xF 0⟩

end Sys2Proof.Machine

/-! The keyboard and the timers (spec/45_keyboard_timers.md), and the statements settled from them (R151 to R162). -/

namespace Sys2Proof.Machine

/-! ### What a write of a timer and a write of the status leave -/

theorem setDT_onlyChanges (s : State) (b : Byte) : onlyChanges [.DT] s (s.setDT b) := by
  intro p hp
  cases p with
  | DT => exact absurd List.mem_cons_self hp
  | V | mem | key => exact fun _ => rfl
  | disp => exact fun _ _ => rfl
  | random => exact ⟨rfl, rfl⟩
  | pc | I | ST | status | stack | params => rfl

theorem setST_onlyChanges (s : State) (b : Byte) : onlyChanges [.ST] s (s.setST b) := by
  intro p hp
  cases p with
  | ST => exact absurd List.mem_cons_self hp
  | V | mem | key => exact fun _ => rfl
  | disp => exact fun _ _ => rfl
  | random => exact ⟨rfl, rfl⟩
  | pc | I | DT | status | stack | params => rfl

theorem setStatus_onlyChanges (s : State) (st : Status) : onlyChanges [.status] s (s.setStatus st) := by
  intro p hp
  cases p with
  | status => exact absurd List.mem_cons_self hp
  | V | mem | key => exact fun _ => rfl
  | disp => exact fun _ _ => rfl
  | random => exact ⟨rfl, rfl⟩
  | pc | I | DT | ST | stack | params => rfl

/-! ### The lowest pressed key (R152) -/

/-- Settles O10: the two answers of the scan over the keys. -/
theorem lowestPressedIsTheSmallestPressedKey : Obligations.LowestPressedIsTheSmallestPressedKey :=
  fun l => ⟨lowestPressed_none l, lowestPressed_some l⟩

/-! ### The timer instructions (R160 to R162) -/

/-- Settles O51: each of the three is one write, of `Vx` or of a timer. -/
theorem timerInstructions : Obligations.TimerInstructions :=
  fun x s => ⟨decode_encode (.ldVxDT x), decode_encode (.ldDTVx x), decode_encode (.ldSTVx x),
    ⟨effect (.ldVxDT x) s, exec_of_completes trivial, getV_setV_same s x _, setV_frame s x _⟩,
    ⟨effect (.ldDTVx x) s, exec_of_completes trivial, rfl, setDT_onlyChanges s _⟩,
    ⟨effect (.ldSTVx x) s, exec_of_completes trivial, rfl, setST_onlyChanges s _⟩⟩

/-! ### Skips on a key (R151, R154, R155) -/

/-- The key that a byte names is the one with its low four bits as number (D10). -/
theorem eq_keyIndex_of_toNat {k : Nibble} {b : Byte} (h : k.toNat = b.toNat % 16) : k = keyIndex b :=
  BitVec.eq_of_toNat_eq (h.trans (keyIndex_toNat b).symm)

theorem keyOfRegPressed_of_toNat {x k : Nibble} {s : State} (h : k.toNat = (s.getV x).toNat % 16) :
    s.keyOfRegPressed x = KeyLatch.isPressed s.key k := by
  rw [State.keyOfRegPressed, eq_keyIndex_of_toNat h]

/-- Settles O49: both are skips, on the test that the key is pressed and on its negation. -/
theorem skipOnKey : Obligations.SkipOnKey := by
  intro x k s hk
  have hskp := exec_of_effect_skipIf (i := .skp x) (s := s) trivial rfl
  have hsknp := exec_of_effect_skipIf (i := .sknp x) (s := s) trivial rfl
  rw [keyOfRegPressed_of_toNat hk] at hskp hsknp
  exact ⟨decode_encode (.skp x), decode_encode (.sknp x), hskp, by
    simpa only [Bool.not_eq_true', ← Bool.not_eq_true, ite_not] using hsknp⟩

/-! ### `Fx0A` and the wait it enters (R157, R158) -/

/-- The poll that finds a key undoes the change of status that entered the wait, so the write of the register is all
that `Fx0A` and the poll leave. -/
theorem waitStep_effect_ldVxK {s : State} {k : Nibble} (x : Nibble) (hrun : s.status = .running)
    (hk : KeyLatch.lowestPressed s.key = some k) :
    waitStep x (effect (.ldVxK x) s) = s.setV x (keyByte k) := by
  rw [waitStep_of_some x (by rwa [effect_key]), ← hrun]
  rfl

/-- The fetch and a write of one register, together. -/
theorem advance_setV_onlyChanges (s : State) (x : Nibble) (b : Byte) :
    onlyChanges [.V, .pc] s (s.advance.setV x b) := by
  intro p hp
  cases p with
  | V | pc => simp at hp
  | mem | key => exact fun _ => rfl
  | disp => exact fun _ _ => rfl
  | random => exact ⟨rfl, rfl⟩
  | I | DT | ST | status | stack | params => rfl

/-- Settles O50: `Fx0A` writes the status alone, so the next step is a poll of the latch as it stood before. -/
theorem keyInstructionEntersTheWait : Obligations.KeyInstructionEntersTheWait := by
  constructor
  · exact fun x s => ⟨decode_encode (.ldVxK x), effect (.ldVxK x) s, exec_of_completes trivial, rfl,
      setStatus_onlyChanges s _⟩
  · intro x s t hnext hstep
    obtain ⟨hrun, hf, -⟩ := (nextInstr_eq_some s _).1 hnext
    obtain ⟨-, rfl⟩ := step_next_of_nextInstr hstep hnext
    have hpoll : step (effect (.ldVxK x) s.advance) = .next (waitStep x (effect (.ldVxK x) s.advance)) :=
      step_awaiting rfl
    constructor
    · intro hreleased
      rw [hpoll, waitStep_of_none x (by rwa [effect_key, lowestPressed_none])]
    · intro k hk
      rw [hpoll, waitStep_effect_ldVxK x (s := s.advance) hrun hk]
      refine ⟨_, rfl, ?_, advance_pc_toNat s hf, setV_regsSameExcept s.advance x _,
        advance_setV_onlyChanges s x _⟩
      rw [getV_setV_same, keyByte_toNat]

end Sys2Proof.Machine

/-! The boundary of the block (spec/50_interfaces.md): the diagnostic of a step, the image load, the keys and the timer
tick, and the statements settled from them (R167 to R172). -/

namespace Sys2Proof.Machine

/-! ### The diagnostic of a step (R171) -/

/-- The decoder rejects a word only as an unknown one (R77). -/
theorem knownWord_eq_false_of_decode_error {w : Word} {e : Reject} (h : decode w = .error e) :
    knownWord w = false := by
  obtain hunknown | ⟨i, hok, -⟩ := decode_answersFor w
  · exact (knownWord_eq_false_iff w).2 hunknown
  · simp [hok] at h

theorem nextWord_of_diagnostic {s : State} {w : Word} (h : s.diagnostic = some w) :
    s.nextWord = some w ∧ knownWord w = false := by
  unfold State.diagnostic at h
  split at h
  case h_1 => cases h
  case h_2 v hnext =>
    split at h
    case h_1 => cases h
    case h_2 e hd =>
      obtain rfl : v = w := Option.some.inj h
      exact ⟨hnext, knownWord_eq_false_of_decode_error hd⟩

/-- Settles O8: the diagnostic is a next word that the decoder rejects, and every fetched unknown word is one. -/
theorem diagnosticExactlyForUnknownWords : Obligations.DiagnosticExactlyForUnknownWords := by
  intro s w
  constructor
  · intro h
    obtain ⟨hnext, hw⟩ := nextWord_of_diagnostic h
    obtain ⟨hrun, hf, hfetch⟩ := (nextWord_eq_some s w).1 hnext
    exact ⟨hrun, (canFetch_iff s).1 hf, hfetch, hw⟩
  · rintro ⟨hrun, hpc, rfl, hw⟩
    exact diagnostic_of_unknownWord hrun ((canFetch_iff s).2 hpc) hw

/-! ### The image load (R167, R190) -/

section
variable {s : State} {bytes : List Byte}

theorem load_of_length_le (h : bytes.length ≤ 3584) : s.load bytes = .ok (s.store 0x200 bytes) := by
  obtain ⟨-, hload⟩ | ⟨hlong, -⟩ := load_cases s bytes
  · exact hload
  · omega

theorem load_of_length_gt (h : 3584 < bytes.length) : s.load bytes = .error .imageTooLong := by
  obtain ⟨hfits, -⟩ | ⟨-, hload⟩ := load_cases s bytes
  · omega
  · exact hload

theorem act_load_of_error {e : LoadError} (h : s.load bytes = .error e) : (Event.load bytes).act s = s := by
  simp [Event.act, h]

end

/-- Settles O52: an image that fits is one store at 0x200, which ends at the top of memory at the latest. -/
theorem loadIsAllOrNothing : Obligations.LoadIsAllOrNothing := by
  intro s bytes
  constructor
  · intro hm hl
    have htop : 0x200 + bytes.length ≤ 4096 := by omega
    exact ⟨s.store 0x200 bytes, load_of_length_le hl, read_storeBytes_in bytes hm htop,
      read_storeBytes_out bytes s.mem 0x200, storeBytes_wf bytes hm htop, store_onlyChanges s 0x200 bytes⟩
  · intro hlong
    have hload : s.load bytes = .error .imageTooLong := load_of_length_gt hlong
    exact ⟨hload, act_load_of_error hload⟩

/-! ### The keys (R159, R169) -/

theorem setKey_onlyChanges (s : State) (k : Nibble) (p : Bool) : onlyChanges [.key] s (s.setKey k p) := by
  intro q hq
  cases q with
  | key => exact absurd List.mem_cons_self hq
  | V | mem => exact fun _ => rfl
  | disp => exact fun _ _ => rfl
  | random => exact ⟨rfl, rfl⟩
  | pc | I | DT | ST | status | stack | params => rfl

theorem act_key {s : State} {e : Event} (hset : ∀ k p, e ≠ .setKey k p) (hreset : e ≠ .reset) :
    (e.act s).key = s.key := by
  cases e with
  | step =>
    obtain h | h := stateAfter_eq_or_stepLeaves s
    · exact congrArg State.key h
    · exact stepLeaves_key h
  | reset => exact absurd rfl hreset
  | load bytes => obtain ⟨-, h⟩ | h := act_load_cases s bytes <;> rw [h]; rfl
  | setKey k p => exact absurd rfl (hset k p)
  | timerTick => rfl
  | supplyRandom bytes => rfl

/-- Settles O54: `set_key` writes its own key; the latch as a whole outlasts every event but it and reset. -/
theorem keysChangeOnlyBySetKey : Obligations.KeysChangeOnlyBySetKey := by
  refine ⟨fun s k p => ⟨?_, fun j hj => ?_, setKey_onlyChanges s k p⟩, fun s e hset hreset k => ?_⟩
  · exact (isPressed_setKey s k k p).trans (if_pos rfl)
  · exact (isPressed_setKey s k j p).trans (if_neg hj)
  · rw [act_key hset hreset]

/-! ### The timer tick (R172) -/

/-- The subtraction of numbers stops at 0 where the count does (D18). -/
theorem tickDown_toNat (t : Byte) : (tickDown t).toNat = t.toNat - 1 := by
  by_cases h : t = 0
  · simp [tickDown, h]
  · have hpos : t.toNat ≠ 0 := fun h0 => h (BitVec.eq_of_toNat_eq h0)
    have hlt := t.isLt
    rw [tickDown, if_neg h, BitVec.toNat_sub, show (1 : Byte).toNat = 1 from rfl]
    omega

theorem timerTick_onlyChanges (s : State) : onlyChanges [.DT, .ST] s s.timerTick := by
  intro p hp
  cases p with
  | DT | ST => simp at hp
  | V | mem | key => exact fun _ => rfl
  | disp => exact fun _ _ => rfl
  | random => exact ⟨rfl, rfl⟩
  | pc | I | status | stack | params => rfl

/-- Settles O53: the tick counts each timer down by `tickDown` and writes nothing else. -/
theorem timerTickCountsDownToZero : Obligations.TimerTickCountsDownToZero :=
  fun s => ⟨tickDown_toNat s.DT, tickDown_toNat s.ST, timerTick_onlyChanges s⟩

end Sys2Proof.Machine

/-! Errors (spec/60_exceptions.md): the one raising condition of each instruction, all the ways a step raises, and the
statements settled from them (R185 to R191, R193). -/

namespace Sys2Proof.Machine

/-! ### What an instruction raises (R185, R193) -/

/-- Instruction `i`, executed in `s`, meets its raising condition and raises `f`: the rows of R185 for the execute
phase. An instruction without a constructor never raises. -/
inductive Raises (s : State) : Instr → Fault → Prop
  /-- `00EE` (R189). -/
  | ret (hempty : s.stack = []) : Raises s .ret (.stackUnderflow s)
  /-- `2nnn` (R187). -/
  | call {nnn : Addr12} {d : Nat} (hdepth : s.params.stackDepth = some d) (hfull : d ≤ s.stack.length) :
    Raises s (.call nnn) (.stackOverflow s)
  /-- `Dxyn` (R186). -/
  | drw {x y n : Nibble} (hrows : 1 ≤ n.toNat) (hrange : 4095 < s.I.toNat + n.toNat - 1) :
    Raises s (.drw x y n) (.memoryAccessError (s.I.toNat + n.toNat - 1) s)
  /-- `Fx33` (R186). -/
  | ldB {x : Nibble} (hrange : 4095 < s.I.toNat + 2) : Raises s (.ldB x) (.memoryAccessError (s.I.toNat + 2) s)
  /-- `Fx55` (R186). -/
  | storeRegs {x : Nibble} (hrange : 4095 < s.I.toNat + x.toNat) :
    Raises s (.storeRegs x) (.memoryAccessError (s.I.toNat + x.toNat) s)
  /-- `Fx65` (R186). -/
  | loadRegs {x : Nibble} (hrange : 4095 < s.I.toNat + x.toNat) :
    Raises s (.loadRegs x) (.memoryAccessError (s.I.toNat + x.toNat) s)

theorem exec_of_raises {s : State} {i : Instr} {f : Fault} (h : Raises s i f) : exec i s = .fault f := by
  cases h with
  | ret hempty => exact exec_ret_of_stack_nil hempty
  | call hdepth hfull => exact exec_call_of_stackFull _ (stackFull_of_depth_le hdepth hfull)
  | drw hrows hrange => exact exec_drw_of_range_exceeds _ _ hrows hrange
  | ldB hrange => exact exec_ldB_of_range_exceeds hrange
  | storeRegs hrange => exact exec_storeRegs_of_range_exceeds hrange
  | loadRegs hrange => exact exec_loadRegs_of_range_exceeds hrange

theorem raises_of_not_completes {i : Instr} {s : State} (h : ¬ completes i s) : ∃ f, Raises s i f := by
  cases i with
  | ret => exact ⟨_, .ret (not_not.1 h)⟩
  | call nnn =>
    obtain ⟨d, hdepth, hfull⟩ : ∃ d, s.params.stackDepth = some d ∧ d ≤ s.stack.length := by
      simpa [completes] using h
    exact ⟨_, .call hdepth hfull⟩
  | drw x y n =>
    obtain ⟨hrows, hrange⟩ := not_or.1 h
    exact ⟨_, .drw (Nat.pos_of_ne_zero hrows) (by omega)⟩
  | ldB x => exact ⟨_, .ldB (Nat.lt_of_succ_lt_succ (not_le.1 h))⟩
  | storeRegs x => exact ⟨_, .storeRegs (Nat.lt_of_succ_lt_succ (not_le.1 h))⟩
  | loadRegs x => exact ⟨_, .loadRegs (Nat.lt_of_succ_lt_succ (not_le.1 h))⟩
  | _ => exact absurd trivial h

theorem exec_eq_fault_iff {i : Instr} {s : State} {f : Fault} : exec i s = .fault f ↔ Raises s i f := by
  refine ⟨fun h => ?_, exec_of_raises⟩
  have hc : ¬ completes i s := fun hc => by simp [exec_of_completes hc] at h
  obtain ⟨f', hraises⟩ := raises_of_not_completes hc
  obtain rfl : f' = f := by simpa [exec_of_raises hraises] using h
  exact hraises

theorem execUnknown_eq_fault_iff {w : Word} {s : State} {f : Fault} :
    execUnknown w s = .fault f ↔ s.params.strictUnknown = true ∧ f = .unknownInstruction w s := by
  cases hs : s.params.strictUnknown with
  | false => simp [execUnknown_default w s hs]
  | true => simp [execUnknown_strict w s hs, eq_comm]

/-! ### What a step raises (R185, R191, R193) -/

/-- All the ways a step raises: in the fetch, in the instruction it executes, or by an unknown word. -/
theorem step_eq_fault_iff {s : State} {f : Fault} : step s = .fault f ↔
    (s.status = .running ∧ 4096 ≤ s.pc.toNat + 1 ∧ f = .memoryAccessError (s.pc.toNat + 1) s) ∨
    (∃ i, s.nextInstr = some i ∧ Raises s.advance i f) ∨
    (∃ w, s.nextWord = some w ∧ knownWord w = false ∧ s.params.strictUnknown = true ∧
      f = .unknownInstruction w s.advance) := by
  constructor
  · intro h
    obtain ⟨r, -, hs⟩ | ⟨hrun, hf, hs⟩ | ⟨i, hrun, hf, hd, hs⟩ | ⟨e, hrun, hf, hd, hs⟩ := step_cases s <;>
      rw [hs] at h
    · cases h
    · cases h
      exact .inl ⟨hrun, (canFetch_eq_false_iff s).1 hf, rfl⟩
    · exact .inr (.inl ⟨i, (nextInstr_eq_some s i).2 ⟨hrun, hf, hd⟩, exec_eq_fault_iff.1 h⟩)
    · exact .inr (.inr ⟨_, (nextWord_eq_some s _).2 ⟨hrun, hf, rfl⟩, knownWord_eq_false_of_decode_error hd,
        execUnknown_eq_fault_iff.1 h⟩)
  · rintro (⟨hrun, hpc, rfl⟩ | ⟨i, hi, hraises⟩ | ⟨w, hnext, hw, hstrict, rfl⟩)
    · exact step_fetch_error hrun ((canFetch_eq_false_iff s).2 hpc)
    · exact (step_of_nextInstr hi).trans (exec_of_raises hraises)
    · obtain ⟨hrun, hf, rfl⟩ := (nextWord_eq_some s w).1 hnext
      exact (step_of_unknownWord hrun hf hw).trans (execUnknown_eq_fault_iff.2 ⟨hstrict, rfl⟩)

theorem step_of_raises {s : State} {i : Instr} {f : Fault} (hi : s.nextInstr = some i)
    (h : Raises s.advance i f) : step s = .fault f :=
  step_eq_fault_iff.2 (.inr (.inl ⟨i, hi, h⟩))

/-- Settles O18: each raising condition is tested before the first effect; a step has moved `pc` by its fetch alone. -/
theorem executeErrorsChangeNothing : Obligations.ExecuteErrorsChangeNothing := by
  refine ⟨fun i s f => exec_fault_after, fun s f h => ?_⟩
  obtain ⟨hnone, hafter⟩ | ⟨hsome, hf, hafter⟩ := step_fault_cases h
  · exact ⟨fun _ => hafter, fun hne => absurd hnone hne⟩
  · refine ⟨fun hnone => by simp [hsome] at hnone, fun _ => ?_⟩
    rw [hafter]
    exact ⟨advance_pc_toNat s hf, rfl, setPc_onlyChanges s _⟩

/-- Settles O19: the fetch, and the four instructions whose raising condition is a range. -/
theorem memoryAccessErrorInExactlyFivePlaces : Obligations.MemoryAccessErrorInExactlyFivePlaces := by
  intro s u a
  constructor
  · intro h
    obtain ⟨hrun, hpc, ⟨⟩⟩ | ⟨i, hi, hraises⟩ | ⟨w, -, -, -, ⟨⟩⟩ := step_eq_fault_iff.1 h
    · exact .inl ⟨hrun, hpc, rfl, rfl⟩
    · cases hraises with
      | drw hrows hrange => exact .inr ⟨rfl, .inl ⟨_, _, _, hi, hrows, hrange, rfl⟩⟩
      | ldB hrange => exact .inr ⟨rfl, .inr (.inl ⟨_, hi, hrange, rfl⟩)⟩
      | storeRegs hrange => exact .inr ⟨rfl, .inr (.inr (.inl ⟨_, hi, hrange, rfl⟩))⟩
      | loadRegs hrange => exact .inr ⟨rfl, .inr (.inr (.inr ⟨_, hi, hrange, rfl⟩))⟩
  · rintro (⟨hrun, hpc, rfl, rfl⟩ | ⟨rfl, ⟨x, y, n, hi, hrows, hrange, rfl⟩ | ⟨x, hi, hrange, rfl⟩ |
      ⟨x, hi, hrange, rfl⟩ | ⟨x, hi, hrange, rfl⟩⟩)
    · exact step_eq_fault_iff.2 (.inl ⟨hrun, hpc, rfl⟩)
    · exact step_of_raises hi (.drw hrows hrange)
    · exact step_of_raises hi (.ldB hrange)
    · exact step_of_raises hi (.storeRegs hrange)
    · exact step_of_raises hi (.loadRegs hrange)

/-- Settles O20: of the ways a step raises, only that of `00EE` gives this error. -/
theorem stackUnderflowOnlyByReturnOnEmptyStack : Obligations.StackUnderflowOnlyByReturnOnEmptyStack := by
  intro s u
  constructor
  · intro h
    obtain ⟨-, -, ⟨⟩⟩ | ⟨i, hi, hraises⟩ | ⟨w, -, -, -, ⟨⟩⟩ := step_eq_fault_iff.1 h
    cases hraises with
    | ret hempty => exact ⟨hi, hempty, rfl⟩
  · rintro ⟨hi, hempty, rfl⟩
    exact step_of_raises hi (.ret hempty)

theorem step_stackOverflow_iff {s u : State} : step s = .fault (.stackOverflow u) ↔
    ∃ nnn d, s.nextInstr = some (.call nnn) ∧ s.params.stackDepth = some d ∧ d ≤ s.stack.length ∧ u = s.advance := by
  constructor
  · intro h
    obtain ⟨-, -, ⟨⟩⟩ | ⟨i, hi, hraises⟩ | ⟨w, -, -, -, ⟨⟩⟩ := step_eq_fault_iff.1 h
    cases hraises with
    | call hdepth hfull => exact ⟨_, _, hi, hdepth, hfull, rfl⟩
  · rintro ⟨nnn, d, hi, hdepth, hfull, rfl⟩
    exact step_of_raises hi (.call hdepth hfull)

theorem step_unknownInstruction_iff {s u : State} {w : Word} : step s = .fault (.unknownInstruction w u) ↔
    s.nextWord = some w ∧ knownWord w = false ∧ s.params.strictUnknown = true ∧ u = s.advance := by
  constructor
  · intro h
    obtain ⟨-, -, ⟨⟩⟩ | ⟨i, -, ⟨⟩⟩ | ⟨v, hnext, hv, hstrict, ⟨⟩⟩ := step_eq_fault_iff.1 h
    exact ⟨hnext, hv, hstrict, rfl⟩
  · rintro ⟨hnext, hw, hstrict, rfl⟩
    exact step_eq_fault_iff.2 (.inr (.inr ⟨w, hnext, hw, hstrict, rfl⟩))

/-- Settles O21: the conditions of the two raises name the parameter each depends on. -/
theorem otherErrorsOnlyUnderNonDefaultParameters : Obligations.OtherErrorsOnlyUnderNonDefaultParameters :=
  ⟨fun _ _ => step_stackOverflow_iff, fun _ _ _ => step_unknownInstruction_iff⟩

end Sys2Proof.Machine

/-! Reset and hazards (spec/70_reset_and_hazards.md): the entry point (R213) and the parked program (R215). -/

namespace Sys2Proof.Machine

/-! ### The first fetch after reset (R213) -/

theorem nextWord_at_entryPoint {t : State} (hrun : t.status = .running) (hpc : t.pc = 0x200) :
    t.nextWord = some (wordOfBytes (t.mem.read 0x200) (t.mem.read 0x201)) := by
  have hf : t.canFetch = true := (canFetch_iff t).2 (by rw [hpc]; decide)
  have hword : t.fetchWord = wordOfBytes (t.mem.read 0x200) (t.mem.read 0x201) := by
    rw [State.fetchWord, hpc]; rfl
  rw [← hword]
  exact (nextWord_eq_some t _).2 ⟨hrun, hf, rfl⟩

/-- An image stored at the entry point supplies the word fetched there. -/
theorem nextWord_store_at_entryPoint {s : State} {b0 b1 : Byte} {rest : List Byte} (hm : s.mem.wf = true)
    (hl : rest.length + 2 ≤ 3584) (hrun : s.status = .running) (hpc : s.pc = 0x200) :
    (s.store 0x200 (b0 :: b1 :: rest)).nextWord = some (wordOfBytes b0 b1) := by
  have hread := read_storeBytes_in (b0 :: b1 :: rest) hm (a := 0x200) (by simp only [List.length_cons]; omega)
  have h0 : (s.mem.storeBytes 0x200 (b0 :: b1 :: rest)).read 0x200 = b0 := hread 0 (by simp)
  have h1 : (s.mem.storeBytes 0x200 (b0 :: b1 :: rest)).read 0x201 = b1 := hread 1 (by simp)
  rw [nextWord_at_entryPoint (t := s.store 0x200 _) hrun hpc, store_mem, h0, h1]

/-- Settles O56: reset leaves the engine running at 0x200, and the load stores the image there. -/
theorem firstStepFetchesAtTheEntryPoint : Obligations.FirstStepFetchesAtTheEntryPoint :=
  ⟨fun _ => ⟨rfl, nextWord_at_entryPoint rfl rfl⟩,
    fun _ _ _ _ hm hl => ⟨_, load_of_length_le hl, nextWord_store_at_entryPoint hm hl rfl rfl⟩⟩

/-! ### The parked program (R215) -/

/-- A jump overwrites what the fetch did to `pc`. -/
theorem effect_jp_advance {s : State} {nnn : Addr12} (hpc : s.pc = addrImm nnn) :
    effect (.jp nnn) s.advance = s := by
  change { s with pc := addrImm nnn } = s
  rw [← hpc]

/-- Settles O30: the jump's target is the address the jump was fetched from. -/
theorem parkedProgramStaysPut : Obligations.ParkedProgramStaysPut := by
  rintro s ⟨nnn, hjp, hpc⟩
  have hc : completes (.jp nnn) s.advance := trivial
  rw [step_of_nextInstr hjp, exec_of_completes hc, effect_jp_advance hpc]

end Sys2Proof.Machine
